-- ==== Sys2Proof/Word.lean ====
section
/-! DEFINITION. The words of the tile-decode engine and the plain bit and slice readings of rule R8. -/

namespace Sys2Proof

/-- A VRAM cell and a write datum: an unsigned 8-bit value (rules R5 `BYTE_W`, R6 `DATA_W`, R10). -/
abbrev Byte := BitVec 8

/-- A command word or a response word: 32 bits (rule R6 `CMD_W`, `RSP_W`). -/
abbrev Word := BitVec 32

/-- The address field of a command: 16 bits, unsigned (rule R6 `ADDR_W`, rule R41). -/
abbrev AddrField := BitVec 16

/-- The data field of a response: 16 bits (rule R6 `RSP_DATA_W`, rule R43). -/
abbrev RspData := BitVec 16

/-- `v[i]` of rule R8: bit `i`, bit 0 the least significant one. -/
abbrev bitOf {w : Nat} (v : BitVec w) (i : Nat) : Bool := v.getLsbD i

/-- `v[hi:lo]` of rule R8, as a value of width `hi - lo + 1`. -/
abbrev slice {w : Nat} (hi lo : Nat) (v : BitVec w) : BitVec (hi - lo + 1) := v.extractLsb hi lo

end Sys2Proof
end

