-- ==== Sys2Proof/Config.lean ====
section
/-! DEFINITION. The constants the source hardwires (rule R5), the widths the spec decides (rule R6) and the one open
parameter (rule R7). No command reads or changes any of them (rules R5, R16). -/

namespace Sys2Proof

/-- `VRAM_SIZE`: number of bytes of the VRAM store (rule R5). -/
abbrev Config.vramSize : Nat := 0x2000

/-- `TILE_DATA_END`: the first local address that is not tile data (rule R5). -/
abbrev Config.tileDataEnd : Nat := 0x1800

/-- `NUM_TILES`: number of tiles of the cache (rule R5). -/
abbrev Config.numTiles : Nat := 384

/-- `TILE_BYTES`: VRAM bytes of one tile (rule R5). -/
abbrev Config.tileBytes : Nat := 16

/-- `PAIR_BYTES`: VRAM bytes of one tile row, one plane pair (rule R5). -/
abbrev Config.pairBytes : Nat := 2

/-- `TILE_ROWS`: rows of a tile (rule R5). -/
abbrev Config.tileRows : Nat := 8

/-- `TILE_COLS`: pixels of a row (rule R5). -/
abbrev Config.tileCols : Nat := 8

/-- `BPP`: bits of a pixel (rule R5); also `PV_W` of rule R6. -/
abbrev Config.bpp : Nat := 2

/-- `BYTE_W`: bits of a VRAM cell (rule R5); also `DATA_W` of rule R6. -/
abbrev Config.byteW : Nat := 8

/-- `CMD_W` and `RSP_W`: bits of a command word and of a response word (rule R6). -/
abbrev Config.cmdW : Nat := 32

/-- `OP_W`: bits of the opcode field (rule R6). -/
abbrev Config.opW : Nat := 2

/-- `ADDR_W`: bits of the address field (rule R6). -/
abbrev Config.addrW : Nat := 16

/-- `RSP_DATA_W`: bits of the response's data field (rule R6). -/
abbrev Config.rspDataW : Nat := 16

/-- `GLOBAL_BASE`: the console's address of local address 0. Only the bus outside the block uses it (rules R5, R22). -/
abbrev Config.globalBase : Nat := 0x8000

/-- Number of pixel cells, and the bound of a pixel address: 384 * 64 = 0x6000 (rules R11, R23). -/
abbrev Config.numPixels : Nat := numTiles * tileRows * tileCols

/-- Number of rows, and the bound of a row address: 384 * 8 = 0x0C00 (rule R23). -/
abbrev Config.numRows : Nat := numTiles * tileRows

/-- The two regions of the VRAM address space (rule R21). -/
inductive RegionKind where
  | tileData
  | tileMap
  deriving DecidableEq, Repr

/-- A row of the memory map of rule R21. Both regions are stored, readable and writable, with no permission bit (rules
R21, R37). -/
structure Region where
  kind : RegionKind
  base : Nat
  size : Nat
  /-- the column "decoded into tiles" -/
  decoded : Bool
  deriving DecidableEq, Repr

/-- The memory map of the VRAM store (rule R21). An address outside both rows is not an address of the store. -/
def Config.memoryMap : List Region :=
  [ { kind := .tileData, base := 0x0000, size := 6144, decoded := true },
    { kind := .tileMap, base := 0x1800, size := 2048, decoded := false } ]

/-- What every VRAM cell holds after reset (rule R19), and so what an address that the list of cells does not name
reads as. -/
abbrev Config.resetByte : Byte := 0x00

/-- `LATENCY` (rule R7, entry U10): the time from accepting a command to its response. Open, unconstrained, and read by
no rule; so no definition of this model reads it and nothing can be proved of its value (DESIGN CHOICE, log entry 6). -/
opaque Config.latency : Nat

end Sys2Proof
end

