-- ==== Sys2Proof/Syntax.lean ====
section
/-! DEFINITION. The four commands (rule R42), the listing syntax of rules R47 and R48, and the shape of an opcode-table
row. The update procedure TUPD is no command and has no constructor (rule R42). -/

namespace Sys2Proof

/-- A command, one constructor for each row of spec/opcode_table.json (rule R42). The fields `rsv` of all four and
`data` of VRD, TPX and TROW are ignored by the block (rule R44), so an instruction does not carry them. The operands are
the fields of the word, so that every value of this type is a command that the port can carry (rules R40, R41). -/
inductive Instr where
  /-- VRD: read the VRAM byte at local address `a` (rule R50). -/
  | vrd (a : AddrField)
  /-- VWR: write `v` to the VRAM byte at local address `a`, then run the tile update (rule R51). -/
  | vwr (a : AddrField) (v : Byte)
  /-- TPX: read the pixel at pixel address `p` (rule R64). -/
  | tpx (p : AddrField)
  /-- TROW: read the row at row address `q` (rule R65). -/
  | trow (q : AddrField)
  deriving DecidableEq, Repr

/-- The instruction's mnemonic, as spec/opcode_table.json spells it. -/
def Instr.mnemonic : Instr → String
  | .vrd _ => "VRD"
  | .vwr _ _ => "VWR"
  | .tpx _ => "TPX"
  | .trow _ => "TROW"

/-- The address operand that the bounds check of the command is about (rules R49, R64, R65). -/
def Instr.addr : Instr → AddrField
  | .vrd a => a
  | .vwr a _ => a
  | .tpx p => p
  | .trow q => q

/-- A row of the opcode map of rule R42: a word `w` is a command of the row when `w &&& mask = pattern`. -/
structure OpcodeRow where
  mnemonic : String
  pattern : Word
  mask : Word
  deriving DecidableEq, Repr

/-- Why a presented bit string is no command: only its length can be wrong (rules R45, R46). -/
inductive DecodeError where
  /-- The string is longer than one 32-bit command word (rule R46). Raised by `decodePresented`; safe. -/
  | longerThanOneWord (nbits : Nat)
  deriving DecidableEq, Repr

/-- A line of a listing (rule R47), with the pseudo-instruction VWP of rule R48 and the RESET line. Operands are the
integers the assembler reads; `WellFormed.lean` says which of them it accepts. -/
inductive AsmLine where
  /-- `VRD <a>` -/
  | vrd (a : Int)
  /-- `VWR <a>, <v>` -/
  | vwr (a v : Int)
  /-- `TPX <t>, <r>, <c>` -/
  | tpx (t r c : Int)
  /-- `TPX @<p>` -/
  | tpxAt (p : Int)
  /-- `TROW <t>, <r>` -/
  | trow (t r : Int)
  /-- `TROW @<q>` -/
  | trowAt (q : Int)
  /-- `VWP <a>, <b0>, <b1>`: two commands, `VWR <a>, <b0>` then `VWR <a>+1, <b1>` (rule R48). -/
  | vwp (a b0 b1 : Int)
  /-- `RESET`: the test bench asserts `rst` at this point; no command (rule R47). -/
  | reset
  deriving DecidableEq, Repr

end Sys2Proof
end

