-- ==== Sys2Proof/WellFormed.lean ====
section
/-! DEFINITION. What the assembler accepts (rules R41, R47, R48) and which command words a master should drive (rule
R44). A value of `Instr` needs no check: its operands are fields of the command word, and every such word is a legal
command (rule R45). -/

namespace Sys2Proof

/-- Integers that the address field can carry: `-0x8000 .. 0xFFFF` (rules R41, R47). -/
abbrev fieldAddress (a : Int) : Bool := decide (-0x8000 ≤ a ∧ a ≤ 0xFFFF)

/-- What the assembler requires of a listing line (rule R47). A VWP line is its two VWR lines (rule R48), so both
addresses must fit the field; the value operands are any integers, since they are masked. -/
def AsmLine.wellFormed : AsmLine → Bool
  | .vrd a => fieldAddress a
  | .vwr a _ => fieldAddress a
  | .tpx t r c => decide (0 ≤ t ∧ t < 1024) && decide (0 ≤ r ∧ r < 8) && decide (0 ≤ c ∧ c < 8)
  | .tpxAt p => decide (0 ≤ p ∧ p ≤ 65535)
  | .trow t r => decide (0 ≤ t ∧ t < 8192) && decide (0 ≤ r ∧ r < 8)
  | .trowAt q => decide (0 ≤ q ∧ q ≤ 65535)
  | .vwp a _ _ => fieldAddress a && fieldAddress (a + 1)
  | .reset => true

/-- The canonical command words: `rsv` is 0, and `data` is 0 for every command but VWR (rule R44: "A master should
drive ignored bits to 0"). The block takes the other words too. -/
def canonicalWord (w : Word) : Bool :=
  slice 29 24 w == 0 && (slice 31 30 w == 1 || slice 7 0 w == 0)

end Sys2Proof
end

