-- ==== Sys2Proof/Decode.lean ====
section
/-! DEFINITION. The decoder of command words and the encoder (rules R40 to R46). A command is a 32-bit word at a port and
not a string of bytes in a memory, so there is no byte order to choose (rule R24). -/

namespace Sys2Proof

/-- Field `op`, bits 31:30 (rule R40). -/
def opField (w : Word) : BitVec 2 := slice 31 30 w

/-- Field `rsv`, bits 29:24: ignored by the block (rules R40, R44). -/
def rsvField (w : Word) : BitVec 6 := slice 29 24 w

/-- Field `addr`, bits 23:8 (rule R40). -/
def addrField (w : Word) : AddrField := slice 23 8 w

/-- Field `data`, bits 7:0 (rule R40). -/
def dataField (w : Word) : Byte := slice 7 0 w

/-- The decoder: total, since the four values of `op` are all assigned (rules R42, R45). The two bits of `op` are read
one by one: bit 31 tells cache commands from store commands, bit 30 the row read from the pixel read and the write from
the read (decision D21). -/
def decode (w : Word) : Instr :=
  match bitOf w 31, bitOf w 30 with
  | false, false => .vrd (addrField w)
  | false, true => .vwr (addrField w) (dataField w)
  | true, false => .tpx (addrField w)
  | true, true => .trow (addrField w)

/-- The word with the fields of rule R40's diagram, the most significant first. -/
def commandWord (op : BitVec 2) (rsv : BitVec 6) (addr : AddrField) (data : Byte) : Word :=
  op ++ rsv ++ addr ++ data

/-- The canonical word of an instruction: `rsv` is 0, and `data` is 0 where it is ignored (rules R40, R42, R44). -/
def encode : Instr → Word
  | .vrd a => commandWord 0b00 0 a 0
  | .vwr a v => commandWord 0b01 0 a v
  | .tpx p => commandWord 0b10 0 p 0
  | .trow q => commandWord 0b11 0 q 0

/-- The opcode map of rule R42, as `opcode_table.json` lists it. -/
def opcodeTable : List OpcodeRow :=
  [ { mnemonic := "VRD", pattern := 0x00000000, mask := 0xC0000000 },
    { mnemonic := "VWR", pattern := 0x40000000, mask := 0xC0000000 },
    { mnemonic := "TPX", pattern := 0x80000000, mask := 0xC0000000 },
    { mnemonic := "TROW", pattern := 0xC0000000, mask := 0xC0000000 } ]

/-- The command word made of the low `nbits` bits of `w`, every bit above them 0. -/
def presentedWord (nbits w : Nat) : Word := BitVec.ofNat 32 (w % 2 ^ nbits)

/-- A command is exactly 32 bits (rule R46): a longer string is refused by name, and every word is a command
(rule R45). -/
def decodePresented (nbits w : Nat) : Except DecodeError Instr :=
  if nbits ≤ Config.cmdW then .ok (decode (presentedWord nbits w)) else .error (.longerThanOneWord nbits)

/-- What the decoder reads from an instruction whose bits are `w`, numbered as spec/opcode_table.json numbers them: the
block has one-word commands only, so the table's numbering is the word's own. -/
def decodeTableWord (nbits w : Nat) : Option Instr := (decodePresented nbits w).toOption

end Sys2Proof
end

