-- ==== Sys2Proof/Machine/State.lean ====
section
/-! DEFINITION. The state of the machine: the two arrays that are the block's whole architectural state (rule R17), and
the signals at its ports (rule R39). -/

namespace Sys2Proof.Machine

/-- A pixel value: four variants, no fifth, no unwritten marker (rule R12). -/
inductive PixelValue where
  | zero
  | one
  | two
  | three
  deriving DecidableEq, Repr

/-- The VRAM store: the cells that do not hold the reset byte, by local address (rules R10, R21). An address that is not
listed reads as `Config.resetByte`. `Memory.wf` (Ops.lean) gives the canonical form. -/
abbrev Memory := List Host.Cell

/-- The tile cache: the pixel cells that are not `zero`, by pixel address `t*64 + r*8 + c` (rules R11, R23). A pixel that
is not listed is `zero`. `TileCache.wf` (Ops.lean) gives the canonical form. -/
abbrev TileCache := List (Nat × PixelValue)

/-- What the master drives at the input signals when the block looks at them (rule R39). -/
structure PortInput where
  rst : Bool
  reqValid : Bool
  reqCmd : Word
  deriving DecidableEq, Repr

/-- The response to a command (rule R43). As entry U3 of 93_implementation_defined.md asks, an error carries no data, so
no claim can read the filler of the error word (log entry 4). `Response.word` (Flags.lean) gives the word on the wire. -/
inductive Response where
  /-- status OK and the field `rdata` -/
  | ok (rdata : RspData)
  /-- status OUT_OF_RANGE -/
  | outOfRange
  deriving DecidableEq, Repr

/-- The machine. `vram` and `tiles` are the architectural state (rule R17); the block has no register, no program
counter, no flag, no control register and no hidden state (rules R13 to R16, R20). `rsp` is what stands at the response
port; `inputs` is what the master drives, at this step and at the steps after it (rule R39; DESIGN CHOICE, log entry 1). -/
structure State where
  /-- the VRAM store -/
  vram : Memory
  /-- the tile cache -/
  tiles : TileCache
  /-- the response to the command last accepted (`rsp_valid` = 1 with its word), or none since reset (DESIGN CHOICE, log
  entry 2) -/
  rsp : Option Response
  /-- the master's input signals, step by step: the head is what stands at the ports now; an empty list is an idle
  master -/
  inputs : List PortInput
  deriving DecidableEq, Repr

/-- The block never stops with a fault: from any state any command word yields a next state and a response, and the one
exception of the block is reported in that response (rules R66, R70, R85). So this type has no constructor. -/
inductive Fault where
  deriving DecidableEq, Repr

/-- Why a step has no meaning. -/
inductive Refusal where
  /-- An instruction without a meaning yet: no arm of `exec` is refused so. Safe. -/
  | notModelled (mnemonic : String)
  /-- Raised by `step` when the master asserts `rst` together with `req_valid`: a reset while a command is in progress
  is not defined, and a model refuses it (rule R78, decision D20, entry U6; DESIGN CHOICE, log entry 3). Safe: the model has no such
  step. -/
  | resetDuringCommand
  deriving DecidableEq, Repr

/-- The machine right after reset: every VRAM byte 0x00, every pixel `zero` (rule R19), no response yet, and a master
that drives nothing (DESIGN CHOICE, log entries 1 and 2). -/
def State.reset : State where
  vram := []
  tiles := []
  rsp := none
  inputs := []

end Sys2Proof.Machine
end

