-- ==== Sys2Proof/Machine/Flags.lean ====
section
/-! DEFINITION. The block has no flags and no condition codes (rule R15). The one status it reports is the bit `err` of
the response word (rules R43, R67); this file holds the response word and the 2-bit code of a pixel value (rule R12). -/

namespace Sys2Proof.Machine

/-- The 2-bit code of a pixel value: the number in the variant's name (rule R12, decision D8). -/
def PixelValue.code : PixelValue → BitVec 2
  | .zero => 0b00
  | .one => 0b01
  | .two => 0b10
  | .three => 0b11

/-- The bit `err` of the response word: false for OK, true for OUT_OF_RANGE (rules R43, R67). -/
def Response.err : Response → Bool
  | .ok _ => false
  | .outOfRange => true

/-- The response word on the wire: `zext_32(rdata)` for OK, 0x80000000 for OUT_OF_RANGE (rule R43). -/
def Response.word : Response → Word
  | .ok d => d.setWidth 32
  | .outOfRange => 0x80000000

/-- `rsp_valid`: whether `rsp_word` holds the response to the command last accepted (rule R39; DESIGN CHOICE, log
entry 2: how long the wire stays up is not specified). -/
def State.rspValid (s : State) : Bool := s.rsp.isSome

/-- `rsp_word` as the master reads it: none while `rsp_valid` is 0, since the spec gives the wire no value then
(rule R39). -/
def State.rspWord (s : State) : Option Word := s.rsp.map Response.word

end Sys2Proof.Machine
end

