-- ==== Sys2Proof/Machine/Operands.lean ====
section
/-! DEFINITION. The operand forms: the integer an address field stands for and the field an integer is carried in (rule
R41), the masking of a value (rule R51), the bounds checks (rules R49, R64, R65), the two flat forms of the tile-cache
index (rule R23) and the addressing of the update (rules R53, R54). -/

namespace Sys2Proof.Machine

/-- The unsigned number an address field stands for (rule R41). -/
def addressOf (a : AddrField) : Int := Int.ofNat a.toNat

/-- The field that carries the integer address `a`: `a mod 0x10000` (rule R41). -/
def fieldOf (a : Int) : AddrField := BitVec.ofInt 16 a

/-- `v & 0xFF`, the mathematical remainder `v mod 256`, for negative `v` too (rules R8, R51, decision D5). -/
def maskByte (v : Int) : Byte := BitVec.ofInt 8 v

/-- `InRange(a)` for the VRAM store: `0 <= a < VRAM_SIZE` (rule R49). -/
def inRange (a : Int) : Bool := decide (0 ≤ a ∧ a < Config.vramSize)

/-- The row of the memory map that holds the address, if any (rule R21). -/
def regionOf (a : Nat) : Option Region :=
  Config.memoryMap.find? fun g => decide (g.base ≤ a ∧ a < g.base + g.size)

/-- A pixel address is valid when `0 <= p < 0x6000` (rules R23, R64). -/
def pixelInRange (p : Int) : Bool := decide (0 ≤ p ∧ p < Config.numPixels)

/-- A row address is valid when `0 <= q < 0x0C00` (rules R23, R65). -/
def rowInRange (q : Int) : Bool := decide (0 ≤ q ∧ q < Config.numRows)

/-- The pixel address of tile `t`, row `r`, column `c`: `t*64 + r*8 + c` (rule R23). -/
def pixelAddr (t r c : Nat) : Nat := t * 64 + r * 8 + c

/-- The row address of tile `t`, row `r`: `t*8 + r` (rule R23). -/
def rowAddr (t r : Nat) : Nat := t * 8 + r

/-- The tile of pixel address `p`: `p / 64` (rule R23). -/
def pixelTile (p : Nat) : Nat := p / 64

/-- The row of pixel address `p`: `(p / 8) % 8` (rule R23). -/
def pixelRow (p : Nat) : Nat := p / 8 % 8

/-- The column of pixel address `p`: `p % 8` (rule R23). -/
def pixelCol (p : Nat) : Nat := p % 8

/-- The tile of row address `q`: `q / 8` (rule R23). -/
def rowTile (q : Nat) : Nat := q / 8

/-- The row of row address `q`: `q % 8` (rule R23). -/
def rowRow (q : Nat) : Nat := q % 8

/-- `pairBase = a & ~1`, the even address of the plane pair that holds `a` (rule R53; `a & ~1 = 2 * (a / 2)`, rule
R8). -/
def pairBase (a : Nat) : Nat := 2 * (a / 2)

/-- `tileIndex = a / 16` (rule R54). -/
def tileIndex (a : Nat) : Nat := a / 16

/-- `rowIndex = (a % 16) / 2` (rule R54). -/
def rowIndex (a : Nat) : Nat := a % 16 / 2

/-- The trigger of the update: it runs on a write below `TILE_DATA_END` and is a no-op at or above it (rule R52). -/
def triggersUpdate (a : Nat) : Bool := decide (a < Config.tileDataEnd)

end Sys2Proof.Machine
end

