-- ==== Sys2Proof/Machine/Ops.lean ====
section
/-! DEFINITION. The named operations over the state: the canonical lists of cells, the VRAM store, the tile cache, the
response port, taking the exception (rules R66 to R70), the input ports and reset (rules R39, R77). -/

namespace Sys2Proof.Machine

/-! ## Arrays held as lists of the cells that are not blank -/

/-- The value at key `k`: the listed one, or `blank`. -/
def cellsGet {α : Type} (blank : α) : List (Nat × α) → Nat → α
  | [], _ => blank
  | (j, w) :: rest, k => if j = k then w else cellsGet blank rest k

/-- Put an entry in front, unless its value is the blank one. -/
def cellsCons {α : Type} [DecidableEq α] (blank : α) (k : Nat) (v : α) (rest : List (Nat × α)) : List (Nat × α) :=
  if v = blank then rest else (k, v) :: rest

/-- Set the value at key `k`, keeping the keys rising and no blank entry listed. -/
def cellsSet {α : Type} [DecidableEq α] (blank : α) : List (Nat × α) → Nat → α → List (Nat × α)
  | [], k, v => cellsCons blank k v []
  | (j, w) :: rest, k, v =>
    if k < j then cellsCons blank k v ((j, w) :: rest)
    else if k = j then cellsCons blank k v rest
    else (j, w) :: cellsSet blank rest k v

/-- The canonical form of an array of `size` cells: keys strictly rising, all below `size`, no blank entry listed. -/
abbrev cellsWf {α : Type} (size : Nat) (blank : α) (m : List (Nat × α)) : Prop :=
  m.Pairwise (fun x y => x.1 < y.1) ∧ ∀ x ∈ m, x.1 < size ∧ x.2 ≠ blank

/-- The canonical form of the VRAM store: 8192 cells, the reset byte not listed (rules R10, R19). -/
abbrev Memory.wf (m : Memory) : Prop := cellsWf Config.vramSize Config.resetByte m

/-- The canonical form of the tile cache: 24576 pixel cells, `zero` not listed (rules R11, R19). -/
abbrev TileCache.wf (m : TileCache) : Prop := cellsWf Config.numPixels PixelValue.zero m

/-! ## The VRAM store -/

/-- `VRAM[a]`, for `0 <= a < VRAM_SIZE`; every use stands behind the check of rule R49 (rule R8, `MemRead(a, 1)`). -/
def State.readVram (s : State) (a : Nat) : Byte := cellsGet Config.resetByte s.vram a

/-- `VRAM[a] <- v`, for `0 <= a < VRAM_SIZE` (rule R8, `MemWrite(a, 1, v)`). -/
def State.writeVram (s : State) (a : Nat) (v : Byte) : State :=
  { s with vram := cellsSet Config.resetByte s.vram a v }

/-! ## The tile cache -/

/-- `tiles[t][r][c]` (rules R8, R11), for `t < 384`, `r < 8`, `c < 8`. -/
def State.pixel (s : State) (t r c : Nat) : PixelValue := cellsGet .zero s.tiles (pixelAddr t r c)

/-- `tiles[t][r][c] <- pv` (rules R8, R11). -/
def State.writePixel (s : State) (t r c : Nat) (pv : PixelValue) : State :=
  { s with tiles := cellsSet .zero s.tiles (pixelAddr t r c) pv }

/-- The write-back unit on the first `n` columns: `tiles[t][r][c] <- row[c]` for `c < n` (rule R57). -/
def State.writeColumns (t r : Nat) (row : Nat → PixelValue) : Nat → State → State
  | 0, s => s
  | n + 1, s => (State.writeColumns t r row n s).writePixel t r n (row n)

/-- The write-back of a whole row: its eight cells, unconditionally (rule R57). -/
def State.writeRow (s : State) (t r : Nat) (row : Nat → PixelValue) : State :=
  State.writeColumns t r row Config.tileCols s

/-! ## The response port -/

/-- `respond Ok(d)` (rules R8, R43). -/
def State.respond (s : State) (d : RspData) : State := { s with rsp := some (.ok d) }

/-- Taking the exception: `raise OutOfRange`. The response is the whole of it: nothing is saved, no mode is switched,
nothing is masked, control goes nowhere, and no cell of either array changes (rules R8, R67, R68, R70). There is no
return from it (rule R71). -/
def State.raiseOutOfRange (s : State) : State := { s with rsp := some .outOfRange }

/-! ## The input ports -/

/-- The input signals of an idle master: nothing requested, no reset (rule R39). -/
def idleInput : PortInput := { rst := false, reqValid := false, reqCmd := 0 }

/-- The input signals that present the command word `w` (rule R39). -/
def commandInput (w : Word) : PortInput := { rst := false, reqValid := true, reqCmd := w }

/-- The input signals of a reset (rules R39, R77). -/
def resetInput : PortInput := { rst := true, reqValid := false, reqCmd := 0 }

/-- What stands at the input ports now; a master with nothing more to drive is idle (rule R39, decision D22). -/
def State.port (s : State) : PortInput := s.inputs.head?.getD idleInput

/-- The step has looked at the ports: what the master drives next stands there afterwards (DESIGN CHOICE, log entry 1). -/
def State.consume (s : State) : State := { s with inputs := s.inputs.tail }

/-- The master drives `p` at this step in place of what it was about to drive. -/
def State.drive (s : State) (p : PortInput) : State := { s with inputs := p :: s.inputs.tail }

/-! ## Reset -/

/-- Asserting `rst`: every VRAM cell 0x00, every pixel cell `zero`, and no response word (rules R19, R77; DESIGN CHOICE,
log entry 2, for the response port). What the master drives afterwards is the master's. -/
def State.applyReset (s : State) : State := { State.reset with inputs := s.inputs }

end Sys2Proof.Machine
end

