-- ==== Sys2Proof/Machine/TileRead.lean ====
section
/-! DEFINITION. The tile-cache read commands TPX and TROW (rules R64, R65). -/

namespace Sys2Proof.Machine

/-- The row word of the first `n` columns: column `c` in bits `15 - 2c : 14 - 2c` (rule R65). -/
def rowWordUpTo (row : Nat → PixelValue) : Nat → RspData
  | 0 => 0
  | n + 1 => rowWordUpTo row n ||| ((row n).code.setWidth 16 <<< (14 - 2 * n))

/-- The row word: eight 2-bit codes, column 0 in the most significant two bits (rule R65, decision D8). -/
def rowWord (row : Nat → PixelValue) : RspData := rowWordUpTo row Config.tileCols

/-- The abstract operation `TPX(p)` (rule R64). -/
def tpx (p : Int) (s : State) : State :=
  if pixelInRange p then
    s.respond ((s.pixel (pixelTile p.toNat) (pixelRow p.toNat) (pixelCol p.toNat)).code.setWidth 16)
  else s.raiseOutOfRange

/-- The abstract operation `TROW(q)` (rule R65). -/
def trow (q : Int) (s : State) : State :=
  if rowInRange q then s.respond (rowWord (s.pixel (rowTile q.toNat) (rowRow q.toNat))) else s.raiseOutOfRange

/-- TPX (rule R64). -/
def execTpx (p : AddrField) (s : State) : Host.Outcome State Fault Refusal := .next (tpx (addressOf p) s)

/-- TROW (rule R65). -/
def execTrow (q : AddrField) (s : State) : Host.Outcome State Fault Refusal := .next (trow (addressOf q) s)

end Sys2Proof.Machine
end

