-- ==== Sys2Proof/Machine/TileUpdate.lean ====
section
/-! DEFINITION. The write-triggered tile update TUPD: trigger and addressing, plane fetch, bit-plane splitter, write-back
(rules R52 to R58). -/

namespace Sys2Proof.Machine

/-- The plane bits to variant table: the first argument is the bit of the even-address byte `plane1`, the second the
bit of the odd-address byte `plane2` (rule R56, conflict C5). -/
def pv : Bool → Bool → PixelValue
  | false, false => .zero
  | false, true => .one
  | true, false => .two
  | true, true => .three

/-- The splitter: pixel column `c` is decoded from bit `7 - c` of each plane byte (rules R25, R56, R62). -/
def splitRow (plane1 plane2 : Byte) (c : Nat) : PixelValue := pv (bitOf plane1 (7 - c)) (bitOf plane2 (7 - c))

/-- `TUPD(a)`, run inside a VWR to `a` after its byte is stored: a no-op at or above 0x1800; below, both bytes of the
pair are read from the store as it now is, the row is decoded and its eight pixels are written back (rule R58). -/
def tupd (a : Nat) (s : State) : State :=
  if triggersUpdate a then
    s.writeRow (tileIndex a) (rowIndex a) (splitRow (s.readVram (pairBase a)) (s.readVram (pairBase a + 1)))
  else s

end Sys2Proof.Machine
end

