-- ==== Sys2Proof/Machine/VramStore.lean ====
section
/-! DEFINITION. The VRAM store commands VRD and VWR (rules R49 to R51): the abstract operations on any integer address
and value, and the meanings of the two commands, whose operands are fields of the command word (rule R41). -/

namespace Sys2Proof.Machine

/-- The abstract operation `VRD(a)` (rule R50). -/
def vrd (a : Int) (s : State) : State :=
  if inRange a then s.respond ((s.readVram a.toNat).setWidth 16) else s.raiseOutOfRange

/-- The abstract operation `VWR(a, v)`: check, store, update, respond (rule R51). -/
def vwr (a v : Int) (s : State) : State :=
  if inRange a then (tupd a.toNat (s.writeVram a.toNat (maskByte v))).respond 0 else s.raiseOutOfRange

/-- VRD (rule R50). -/
def execVrd (a : AddrField) (s : State) : Host.Outcome State Fault Refusal := .next (vrd (addressOf a) s)

/-- VWR (rule R51): the field `data` carries the value, already masked by the width of the port (rule R41). -/
def execVwr (a : AddrField) (v : Byte) (s : State) : Host.Outcome State Fault Refusal :=
  .next (vwr (addressOf a) (Int.ofNat v.toNat) s)

end Sys2Proof.Machine
end

