-- ==== Sys2Proof/Machine/Dispatch.lean ====
section
/-! DEFINITION. `exec`: one arm for each constructor of `Instr` (rules R42, R45). -/

namespace Sys2Proof.Machine

-- The function `Exec` of rule R39: the next state holds the response in its field `rsp`.
def exec (i : Instr) (s : State) : Host.Outcome State Fault Refusal :=
  match i with
  | .vrd a => Sys2Proof.Machine.execVrd a s
  | .vwr a v => Sys2Proof.Machine.execVwr a v s
  | .tpx p => Sys2Proof.Machine.execTpx p s
  | .trow q => Sys2Proof.Machine.execTrow q s

end Sys2Proof.Machine
end

