-- ==== Sys2Proof/Machine/Step.lean ====
section
/-! DEFINITION. One step: the block looks at its input ports once (rules R29, R39, R78). -/

namespace Sys2Proof.Machine

/-- One step. `rst` alone resets (rule R77); `req_valid` alone accepts the command and executes it completely, response
included (rules R29, R30, R39); neither leaves the block as it is (rule R39, decision D22); both together are a reset
while a command is in progress, which a model refuses (rule R78, entry U6; DESIGN CHOICE, log entry 3). -/
def step (s : State) : Host.Outcome State Fault Refusal :=
  match s.port.rst, s.port.reqValid with
  | true, true => .refused .resetDuringCommand
  | true, false => .next s.consume.applyReset
  | false, true => exec (decode s.port.reqCmd) s.consume
  | false, false => .next s.consume

/-- `s` with the command whose bits are `w` at the request port, so that the very next step accepts and runs it. -/
def State.withFetchWord (s : State) (nbits w : Nat) : State := s.drive (commandInput (presentedWord nbits w))

end Sys2Proof.Machine
end

