-- ==== Sys2Proof/Machine/Listing.lean ====
section
/-! DEFINITION. The assembler of rules R47 and R48: from a listing to what the master drives at the input ports. -/

namespace Sys2Proof.Machine

/-- The commands of a well-formed line, in the order they are presented (rules R47, R48); the RESET line is no
command. -/
def assembleCommands : AsmLine → List Instr
  | .vrd a => [.vrd (fieldOf a)]
  | .vwr a v => [.vwr (fieldOf a) (maskByte v)]
  | .tpx t r c => [.tpx (fieldOf (t * 64 + r * 8 + c))]
  | .tpxAt p => [.tpx (fieldOf p)]
  | .trow t r => [.trow (fieldOf (t * 8 + r))]
  | .trowAt q => [.trow (fieldOf q)]
  | .vwp a b0 b1 => [.vwr (fieldOf a) (maskByte b0), .vwr (fieldOf (a + 1)) (maskByte b1)]
  | .reset => []

/-- What the master drives for a line: its command words one by one, or `rst` for the RESET line; none where the
assembler refuses the line (rule R47). -/
def assembleLine (l : AsmLine) : Option (List PortInput) :=
  if l.wellFormed then
    match l with
    | .reset => some [resetInput]
    | l => some ((assembleCommands l).map fun i => commandInput (encode i))
  else none

/-- A listing, line after line; none as soon as the assembler refuses a line. -/
def assemble : List AsmLine → Option (List PortInput)
  | [] => some []
  | l :: rest =>
    match assembleLine l, assemble rest with
    | some ps, some qs => some (ps ++ qs)
    | _, _ => none

end Sys2Proof.Machine
end

