-- ==== Sys2Proof/Safety.lean ====
section
/-! DEFINITION. The terms that claims use: the reference decode and the coherence of the cache (rules R34, R35), the
invariant, the history of the store (rule R31), and runs without an `OutOfRange` (entry U2). -/

namespace Sys2Proof.Machine

/-- `DecodeAll(V)[t][r][c]` (rule R34), for `t < 384`, `r < 8`, `c < 8`. The block never performs it. -/
def decodeAll (V : Nat → Byte) (t r c : Nat) : PixelValue :=
  pv (bitOf (V (16 * t + 2 * r)) (7 - c)) (bitOf (V (16 * t + 2 * r + 1)) (7 - c))

/-- `tiles = DecodeAll(VRAM)`, cell for cell (rule R35). -/
def Coherent (s : State) : Prop :=
  ∀ t < 384, ∀ r < 8, ∀ c < 8, s.pixel t r c = decodeAll s.readVram t r c

/-- Both arrays are in canonical form. -/
abbrev Canonical (s : State) : Prop := Memory.wf s.vram ∧ TileCache.wf s.tiles

/-- The invariant of the machine: canonical arrays and a coherent cache. -/
structure StateInv (s : State) : Prop where
  canonical : Canonical s
  coherent : Coherent s

/-- The two states hold the same in both arrays: the equality of rule R17 (the ports are not architectural state). -/
def SameArrays (s t : State) : Prop := s.vram = t.vram ∧ s.tiles = t.tiles

/-- What the master may drive: not `rst` together with `req_valid` (rule R78). -/
def PortInput.legal (p : PortInput) : Bool := !(p.rst && p.reqValid)

/-- What an input leaves in the store, as a function of the address, with nothing but rules R19, R49 and R51: a reset
leaves 0x00 everywhere, an accepted VWR in range changes its own byte, and nothing else changes anything. -/
def replayInput (V : Nat → Byte) (p : PortInput) : Nat → Byte :=
  if p.rst then fun _ => 0x00
  else if p.reqValid then
    match decode p.reqCmd with
    | .vwr a v => fun b => if b = a.toNat ∧ a.toNat < 0x2000 then v else V b
    | .vrd _ => V
    | .tpx _ => V
    | .trow _ => V
  else V

/-- The store after a sequence of inputs: the most recent write to each address since the last reset (rule R31). -/
def replay (V : Nat → Byte) (ins : List PortInput) : Nat → Byte := ins.foldl replayInput V

/-- The command word `w` has the opcode `op`, `rsv` = 0, and carries the numbers `addr` and `data` in its two operand
fields (rule R40). -/
def WordCarries (w : Word) (op : BitVec 2) (addr data : Int) : Prop :=
  opField w = op ∧ rsvField w = 0 ∧ ((addrField w).toNat : Int) = addr ∧ ((dataField w).toNat : Int) = data

/-- In the state `s` the row of row address `q` reads as the row of the plane bytes `plane1` and `plane2`: TROW gives
their interleave, and TPX of each of its columns gives the code of that pixel (rules R56, R64, R65). -/
def RowReadsAs (s : State) (q : AddrField) (plane1 plane2 : Byte) : Prop :=
  (∃ t d, exec (.trow q) s = .next t ∧ t.rsp = some (.ok d) ∧
    ∀ c < 8, bitOf d (15 - 2 * c) = bitOf plane1 (7 - c) ∧ bitOf d (14 - 2 * c) = bitOf plane2 (7 - c)) ∧
    ∀ c < 8, ∀ p : AddrField, p.toNat = q.toNat * 8 + c →
      ∃ t, exec (.tpx p) s = .next t ∧
        t.rsp = some (.ok ((pv (bitOf plane1 (7 - c)) (bitOf plane2 (7 - c))).code.setWidth 16))

/-- The address operand of the command names something (rule R66's table of causes, the other way round). -/
def commandInRange : Instr → Bool
  | .vrd a => decide (a.toNat < 0x2000)
  | .vwr a _ => decide (a.toNat < 0x2000)
  | .tpx p => decide (p.toNat < 0x6000)
  | .trow q => decide (q.toNat < 0x0C00)

/-- `n` steps of the machine (the host's `Core.run` at `core`), stopping at a refusal. -/
def runSteps (n : Nat) (s : State) : Host.Outcome State Fault Refusal := Host.Core.run core n s

/-- The step accepts a command and answers it OUT_OF_RANGE. -/
def failsNow (s : State) : Bool :=
  match step s with
  | .next t => !s.port.rst && s.port.reqValid && (t.rsp == some Response.outOfRange)
  | .fault _ => false
  | .refused _ => false

/-- Some command of the first `n` steps from `s` was answered OUT_OF_RANGE: the model's own record that a fault was seen
(entry U2), kept here and not in the state, since the block keeps none (rules R15, R71). -/
def sawOutOfRange : Nat → State → Bool
  | 0, _ => false
  | n + 1, s =>
    failsNow s ||
      match step s with
      | .next t => sawOutOfRange n t
      | .fault _ => false
      | .refused _ => false

end Sys2Proof.Machine
end

