-- ==== Sys2Proof/Certificates/Slice0/Obligations.lean ====
section
/-! DEFINITION. The statements of this row, for the provers. They come from the numbered rules of spec/; each docstring
names its rule. Nothing here speaks of a program, and no statement reads a value that the model chose, unless its
docstring says so. -/

open Sys2Proof Sys2Proof.Machine

/-! ## Encoding (rules R40 to R48) -/

/-- R40: the fields of a command word are `op = cmd[31:30]`, `rsv = cmd[29:24]`, `addr = cmd[23:8]`, `data = cmd[7:0]`,
and the word of a command is `(op << 30) | (addr << 8) | data` with `rsv` = 0. -/
def Obligations.CommandWordHasFourFields : Prop :=
  (∀ w : Word, w = (opField w).setWidth 32 <<< 30 ||| (rsvField w).setWidth 32 <<< 24 |||
      (addrField w).setWidth 32 <<< 8 ||| (dataField w).setWidth 32) ∧
    (∀ a, encode (.vrd a) = (0b00 : Word) <<< 30 ||| a.setWidth 32 <<< 8) ∧
    (∀ a v, encode (.vwr a v) = (0b01 : Word) <<< 30 ||| a.setWidth 32 <<< 8 ||| v.setWidth 32) ∧
    (∀ p, encode (.tpx p) = (0b10 : Word) <<< 30 ||| p.setWidth 32 <<< 8) ∧
    ∀ q, encode (.trow q) = (0b11 : Word) <<< 30 ||| q.setWidth 32 <<< 8

/-- From R40, R42: decoding the word of an instruction gives the instruction back, with every operand at every value. -/
def Obligations.DecodeOfEncodeIsTheInstruction : Prop := ∀ i : Instr, decode (encode i) = i

/-- From R40, R44: encoding what a word decodes to gives the word with its ignored bits cleared; the canonical words are
exactly those that come back unchanged. -/
def Obligations.EncodeOfDecodeClearsIgnoredBits : Prop :=
  ∀ w : Word,
    encode (decode w) = (if opField w = 0b01 then w &&& 0xC0FFFFFF else w &&& 0xC0FFFF00) ∧
      (canonicalWord w = true ↔ encode (decode w) = w)

/-- R45, with the map of R42: every 32-bit word matches exactly one row of the opcode table, the row of the instruction
it decodes to. -/
def Obligations.EveryWordIsExactlyOneCommand : Prop :=
  ∀ w : Word, ∃ row ∈ opcodeTable,
    w &&& row.mask = row.pattern ∧ (decode w).mnemonic = row.mnemonic ∧
      ∀ other ∈ opcodeTable, w &&& other.mask = other.pattern → other = row

/-- R44: two words are the same command exactly when they agree on `op`, on every bit of `addr` and, for VWR, on `data`;
then every state answers them alike, and at the port the next state and the response are the same. No high bit of `addr`
is dropped: a TPX with `addr` = 0x8000 fails, it does not alias pixel 0. -/
def Obligations.IgnoredBitsChangeNothing : Prop :=
  (∀ w w' : Word,
    decode w = decode w' ↔
      opField w = opField w' ∧ addrField w = addrField w' ∧ (opField w = 0b01 → dataField w = dataField w')) ∧
    (∀ (s : State) (w w' : Word), opField w = opField w' → addrField w = addrField w' →
      (opField w = 0b01 → dataField w = dataField w') →
        step (s.drive (commandInput w)) = step (s.drive (commandInput w'))) ∧
    ∀ s : State, exec (decode 0x80800000) s = .next s.raiseOutOfRange

/-- Words written out from the encodings of R40 and R42 decode to their instructions: one of each command, and the four
of V6 with ignored bits set. -/
def Obligations.SampleWordsDecode : Prop :=
  decode 0x00000000 = .vrd 0x0000 ∧ decode 0x40000154 = .vwr 0x0001 0x54 ∧ decode 0x80049500 = .tpx 0x0495 ∧
    decode 0xC0009200 = .trow 0x0092 ∧ decode 0x3F0001AA = .vrd 0x0001 ∧ decode 0x7F000154 = .vwr 0x0001 0x54 ∧
    decode 0xBF5FFFFF = .tpx 0x5FFF ∧ decode 0xFFFFFFFF = .trow 0xFFFF

/-- From R46: a command is exactly 32 bits: the decoder reads every string of 32 bits as the command word it is, and a
longer string is no command. That a string of fewer than 32 bits is read as a command word with zeros above it is the
model's choice and no rule of the spec (log entry 8). -/
def Obligations.CommandsAreOneWordLong : Prop :=
  ∀ nbits w : Nat,
    (nbits ≤ 32 → w < 2 ^ nbits → decodeTableWord nbits w = some (decode (BitVec.ofNat 32 w))) ∧
      (32 < nbits → decodeTableWord nbits w = none)

/-- R41: for every integer address in `[-0x8000, 0xFFFF]` and every integer value, the command with the field
`a mod 0x10000` and the value masked behaves as the abstract operation on `a`; and a negative address `-n` is carried as
`0x10000 - n`, which is at least 0x8000. -/
def Obligations.FieldsCarryIntegerOperands : Prop :=
  ∀ (a v : Int) (s : State), -0x8000 ≤ a → a ≤ 0xFFFF →
    exec (.vrd (fieldOf a)) s = .next (vrd a s) ∧
      exec (.vwr (fieldOf a) (maskByte v)) s = .next (vwr a v s) ∧
      exec (.tpx (fieldOf a)) s = .next (tpx a s) ∧
      exec (.trow (fieldOf a)) s = .next (trow a s) ∧
      (0 ≤ a → ((fieldOf a).toNat : Int) = a) ∧
      (a < 0 → ((fieldOf a).toNat : Int) = 0x10000 + a ∧ 0x8000 ≤ (fieldOf a).toNat)

/-- From R47, R48: the assembler turns a line it accepts into canonical words that decode to the line's commands, in
order, and refuses every other line. It accepts VRD and VWR addresses from -32768 to 65535, `TPX t,r,c` with `0 <= t <
1024`, `0 <= r < 8`, `0 <= c < 8`, `TROW t,r` with `0 <= t < 8192`, `0 <= r < 8`, `@p` and `@q` from 0 to 65535, and the
RESET line, which asserts `rst`. `TPX t,r,c` carries `t*64 + r*8 + c`, `TROW t,r` carries `t*8 + r`, and VWP is `VWR a,b0`
then `VWR a+1,b1`. That a line is a term with integer operands, and that a VWP line is refused when `a + 1` does not fit
the field, is the model's choice (log entry 10). AssembledWordsCarryTheLinesOperands says what each word carries. -/
def Obligations.AssemblerPresentsTheLinesCommands : Prop :=
  (∀ l : AsmLine, l ≠ .reset → l.wellFormed = true →
    ∃ ps, assembleLine l = some ps ∧ ps.map (fun p => decode p.reqCmd) = assembleCommands l ∧
      ∀ p ∈ ps, p.rst = false ∧ p.reqValid = true ∧ canonicalWord p.reqCmd = true) ∧
    (∀ l : AsmLine, l.wellFormed = false → assembleLine l = none) ∧
    assembleLine .reset = some [resetInput] ∧
    (∀ a v : Int, ((AsmLine.vrd a).wellFormed = true ↔ -32768 ≤ a ∧ a ≤ 65535) ∧
      ((AsmLine.vwr a v).wellFormed = true ↔ -32768 ≤ a ∧ a ≤ 65535)) ∧
    (∀ t r c : Int, (AsmLine.tpx t r c).wellFormed = true ↔
      (0 ≤ t ∧ t < 1024) ∧ (0 ≤ r ∧ r < 8) ∧ 0 ≤ c ∧ c < 8) ∧
    (∀ t r : Int, (AsmLine.trow t r).wellFormed = true ↔ (0 ≤ t ∧ t < 8192) ∧ 0 ≤ r ∧ r < 8) ∧
    (∀ p : Int, ((AsmLine.tpxAt p).wellFormed = true ↔ 0 ≤ p ∧ p ≤ 65535) ∧
      ((AsmLine.trowAt p).wellFormed = true ↔ 0 ≤ p ∧ p ≤ 65535)) ∧
    (∀ a b0 b1 : Int, (AsmLine.vwp a b0 b1).wellFormed = true ↔ -32768 ≤ a ∧ a + 1 ≤ 65535) ∧
    (∀ t r c : Nat, t < 1024 → r < 8 → c < 8 →
      ∃ p, assembleCommands (.tpx t r c) = [.tpx p] ∧ p.toNat = t * 64 + r * 8 + c) ∧
    (∀ t r : Nat, t < 8192 → r < 8 → ∃ q, assembleCommands (.trow t r) = [.trow q] ∧ q.toNat = t * 8 + r) ∧
    ∀ a b0 b1 : Int,
      assembleCommands (.vwp a b0 b1) = assembleCommands (.vwr a b0) ++ assembleCommands (.vwr (a + 1) b1)

/-- R43: the response word has `err` in bit 31, zeros in bits 30:16 and `rdata` in bits 15:0; an OK response is
`zext_32(rdata)` and an error is the word 0x80000000. By command, when OK: VRD gives at most 0xFF, VWR gives 0, TPX gives
the code of a pixel, at most 3. -/
def Obligations.ResponseWordFormat : Prop :=
  (∀ d : RspData, (Response.ok d).word = d.setWidth 32 ∧ bitOf (Response.ok d).word 31 = false ∧
      slice 30 16 (Response.ok d).word = 0 ∧ slice 15 0 (Response.ok d).word = d) ∧
    Response.outOfRange.word = 0x80000000 ∧ bitOf Response.outOfRange.word 31 = true ∧
    (∀ (a : AddrField) (s t : State) (d : RspData), exec (.vrd a) s = .next t → t.rsp = some (.ok d) →
      d = (s.readVram a.toNat).setWidth 16 ∧ d.toNat ≤ 0xFF) ∧
    (∀ (a : AddrField) (v : Byte) (s t : State) (d : RspData), exec (.vwr a v) s = .next t → t.rsp = some (.ok d) →
      d = 0) ∧
    (∀ (p : AddrField) (s t : State) (d : RspData), exec (.tpx p) s = .next t → t.rsp = some (.ok d) →
      d = (s.pixel (p.toNat / 64) (p.toNat / 8 % 8) (p.toNat % 8)).code.setWidth 16 ∧ d.toNat ≤ 3) ∧
    ∀ (q : AddrField) (s t : State) (d : RspData), exec (.trow q) s = .next t → t.rsp = some (.ok d) →
      d = rowWord (s.pixel (q.toNat / 8) (q.toNat % 8))

/-! ## Operands and addressing (rules R12, R21 to R23, R49, R52 to R54, R56) -/

/-- R12: the code of a pixel value is the number in its name, and the four variants have the four codes. -/
def Obligations.PixelCodesAreTheVariantNumbers : Prop :=
  PixelValue.zero.code = 0b00 ∧ PixelValue.one.code = 0b01 ∧ PixelValue.two.code = 0b10 ∧
    PixelValue.three.code = 0b11 ∧ ∀ k : BitVec 2, ∃ x : PixelValue, x.code = k ∧ ∀ y : PixelValue, y.code = k → y = x

/-- R23: the pixel address and the row address of a cell are below 0x6000 and 0x0C00, tile, row and column come back
from them by division, as they do by the slices of the field, and the row address of the row that holds VRAM address `a`
is `a / 2`. -/
def Obligations.FlatTileAddressesRoundTrip : Prop :=
  (∀ t < 384, ∀ r < 8, ∀ c < 8,
    pixelAddr t r c < 0x6000 ∧ pixelTile (pixelAddr t r c) = t ∧ pixelRow (pixelAddr t r c) = r ∧
      pixelCol (pixelAddr t r c) = c ∧ rowAddr t r < 0x0C00 ∧ rowTile (rowAddr t r) = t ∧
      rowRow (rowAddr t r) = r) ∧
    (∀ p : AddrField, p.toNat < 0x6000 →
      pixelTile p.toNat = (slice 14 6 p).toNat ∧ pixelRow p.toNat = (slice 5 3 p).toNat ∧
        pixelCol p.toNat = (slice 2 0 p).toNat ∧ pixelTile p.toNat < 384 ∧
        pixelAddr (pixelTile p.toNat) (pixelRow p.toNat) (pixelCol p.toNat) = p.toNat) ∧
    (∀ q : AddrField, q.toNat < 0x0C00 →
      rowTile q.toNat = (slice 11 3 q).toNat ∧ rowRow q.toNat = (slice 2 0 q).toNat ∧ rowTile q.toNat < 384 ∧
        rowAddr (rowTile q.toNat) (rowRow q.toNat) = q.toNat ∧
        pairBase (2 * q.toNat) = 2 * q.toNat ∧ rowAddr (tileIndex (2 * q.toNat)) (rowIndex (2 * q.toNat)) = q.toNat) ∧
    ∀ a : AddrField, a.toNat < 0x1800 →
      rowAddr (tileIndex a.toNat) (rowIndex a.toNat) = a.toNat / 2 ∧ a.toNat / 2 = (slice 12 1 a).toNat

/-- From R21: the two regions of the memory map are the addresses below 0x1800 and those from 0x1800 up to 0x1FFF, an
address is in range exactly when a region holds it, and the update runs exactly in the region that is decoded. -/
def Obligations.MemoryMapHasTwoRegions : Prop :=
  ∀ a : Nat,
    ((∃ g, regionOf a = some g ∧ g.kind = .tileData) ↔ a < 0x1800) ∧
      ((∃ g, regionOf a = some g ∧ g.kind = .tileMap) ↔ 0x1800 ≤ a ∧ a < 0x2000) ∧
      (inRange (a : Int) = (regionOf a).isSome) ∧
      (triggersUpdate a = true ↔ ∃ g, regionOf a = some g ∧ g.decoded = true)

/-- R49: `InRange(a)` is `0 <= a <= 0x1FFF`; a VRD or VWR out of range raises `OutOfRange` and nothing else happens; -1
and 0x2000 fail, 0 and 0x1FFF succeed; on the field the check is `addr[15:13] == 0`, and the images of negative addresses
have bit 15 set and fail it. -/
def Obligations.BoundsCheckOfTheStore : Prop :=
  (∀ a : Int, inRange a = true ↔ 0 ≤ a ∧ a ≤ 0x1FFF) ∧
    (∀ (a v : Int) (s : State), inRange a = false →
      (vrd a s).rsp = some .outOfRange ∧ (vrd a s).vram = s.vram ∧ (vrd a s).tiles = s.tiles ∧
        (vwr a v s).rsp = some .outOfRange ∧ (vwr a v s).vram = s.vram ∧ (vwr a v s).tiles = s.tiles) ∧
    (∀ (a v : Int) (s : State), inRange a = true →
      (∃ d, (vrd a s).rsp = some (.ok d)) ∧ ∃ d, (vwr a v s).rsp = some (.ok d)) ∧
    inRange (-1) = false ∧ inRange 0x2000 = false ∧ inRange 0 = true ∧ inRange 0x1FFF = true ∧
    (∀ a : AddrField, inRange (addressOf a) = true ↔ slice 15 13 a = 0) ∧
    ∀ n : Int, 1 ≤ n → n ≤ 0x8000 → bitOf (fieldOf (-n)) 15 = true ∧ inRange (addressOf (fieldOf (-n))) = false

/-- R53: for `a < 0x1800` the pair base is `a & ~1`; it is even, `pairBase <= a <= pairBase + 1`, and
`pairBase + 1 <= 0x17FF`. Bit 0 of `a` says which byte of the pair was written and changes nothing else: the two
addresses of a pair have the same pair base, and the same computation runs for both. -/
def Obligations.PairBaseClearsTheLowBit : Prop :=
  ∀ a : AddrField, a.toNat < 0x1800 →
    pairBase a.toNat = (a &&& ~~~1#16).toNat ∧ pairBase a.toNat % 2 = 0 ∧ pairBase a.toNat ≤ a.toNat ∧
      a.toNat ≤ pairBase a.toNat + 1 ∧ pairBase a.toNat + 1 ≤ 0x17FF ∧
      (bitOf a 0 = false ↔ a.toNat = pairBase a.toNat) ∧ (bitOf a 0 = true ↔ a.toNat = pairBase a.toNat + 1) ∧
      pairBase (pairBase a.toNat) = pairBase a.toNat ∧ pairBase (pairBase a.toNat + 1) = pairBase a.toNat ∧
      ∀ s : State, tupd (pairBase a.toNat) s = tupd (pairBase a.toNat + 1) s

/-- R54: for `a < 0x1800`, `tileIndex = a / 16 = a[12:4]` is at most 383, `rowIndex = (a % 16) / 2 = a[3:1]` is at most
7, and `16*tileIndex + 2*rowIndex = pairBase`. -/
def Obligations.TileAndRowSelection : Prop :=
  ∀ a : AddrField, a.toNat < 0x1800 →
    tileIndex a.toNat = a.toNat / 16 ∧ tileIndex a.toNat = (slice 12 4 a).toNat ∧ tileIndex a.toNat ≤ 383 ∧
      rowIndex a.toNat = a.toNat % 16 / 2 ∧ rowIndex a.toNat = (slice 3 1 a).toNat ∧ rowIndex a.toNat ≤ 7 ∧
      16 * tileIndex a.toNat + 2 * rowIndex a.toNat = pairBase a.toNat

/-- R56: pixel `c` is `PV` of bit `7 - c` of the even byte and bit `7 - c` of the odd byte, by the source's table; in the
code, bit 1 is the plane1 bit and bit 0 is the plane2 bit, so the number of the variant is `2*lsb + msb`. -/
def Obligations.SplitterFollowsThePlaneTable : Prop :=
  pv false false = .zero ∧ pv false true = .one ∧ pv true false = .two ∧ pv true true = .three ∧
    ∀ (plane1 plane2 : Byte), ∀ c < 8,
      splitRow plane1 plane2 c = pv (bitOf plane1 (7 - c)) (bitOf plane2 (7 - c)) ∧
        bitOf (splitRow plane1 plane2 c).code 1 = bitOf plane1 (7 - c) ∧
        bitOf (splitRow plane1 plane2 c).code 0 = bitOf plane2 (7 - c) ∧
        (splitRow plane1 plane2 c).code.toNat = 2 * (bitOf plane1 (7 - c)).toNat + (bitOf plane2 (7 - c)).toNat

/-! ## The update (rules R52, R57, R58) -/

/-- R52: the update is a no-op at or above 0x1800, which on an in-range address is `a[12:11] == 0b11`; below, it always
rewrites its row from the pair, whatever the store holds. -/
def Obligations.UpdateTriggersBelowTileDataEnd : Prop :=
  (∀ (a : Nat) (s : State), 0x1800 ≤ a → tupd a s = s) ∧
    (∀ a : AddrField, a.toNat < 0x2000 → (triggersUpdate a.toNat = false ↔ slice 12 11 a = 0b11)) ∧
    ∀ (a : Nat) (s : State), a < 0x1800 →
      tupd a s =
        s.writeRow (tileIndex a) (rowIndex a) (splitRow (s.readVram (pairBase a)) (s.readVram (pairBase a + 1)))

/-- R57: writing a row back stores its eight pixels in the eight cells of the row, writes no other cell of `tiles` and
never writes VRAM. -/
def Obligations.WriteBackStoresOneRow : Prop :=
  ∀ (s : State) (row : Nat → PixelValue), Canonical s → ∀ t < 384, ∀ r < 8,
    (s.writeRow t r row).vram = s.vram ∧
      (∀ c < 8, (s.writeRow t r row).pixel t r c = row c) ∧
      ∀ t' < 384, ∀ r' < 8, ∀ c < 8, (t', r') ≠ (t, r) → (s.writeRow t r row).pixel t' r' c = s.pixel t' r' c

/-- R58: the whole procedure, pixel by pixel: for `a < 0x1800` the row `a / 16`, `(a % 16) / 2` holds
`PV(bit(plane1, 7-c), bit(plane2, 7-c))` with `plane1 = VRAM[a & ~1]` and `plane2 = VRAM[(a & ~1) + 1]` as the store is
at the call; no other pixel and no byte changes, nothing changes for `a >= 0x1800`, and no error is raised. -/
def Obligations.UpdateRewritesThePairsRow : Prop :=
  ∀ (a : Nat) (s : State), a < 0x2000 → Canonical s →
    (∀ t < 384, ∀ r < 8, ∀ c < 8,
      (tupd a s).pixel t r c =
        if a < 0x1800 ∧ t = a / 16 ∧ r = a % 16 / 2 then
          pv (bitOf (s.readVram (a - a % 2)) (7 - c)) (bitOf (s.readVram (a - a % 2 + 1)) (7 - c))
        else s.pixel t r c) ∧
      (∀ b < 0x2000, (tupd a s).readVram b = s.readVram b) ∧ (tupd a s).rsp = s.rsp

/-! ## The four commands (rules R50, R51, R64, R65): result, completion and frame -/

/-- R50: the word of `VRD a` is `a << 8`; in range VRD answers a next state whose response is the stored byte, zero
extended, and out of range it answers `OutOfRange`; in both cases it writes nothing. -/
def Obligations.VrdReturnsTheStoredByte : Prop :=
  ∀ (a : AddrField) (s : State),
    encode (.vrd a) = 0x00000000 ||| a.setWidth 32 <<< 8 ∧
      (a.toNat < 0x2000 → ∃ t, exec (.vrd a) s = .next t ∧
        t.rsp = some (.ok ((s.readVram a.toNat).setWidth 16)) ∧ t.vram = s.vram ∧ t.tiles = s.tiles ∧
        t.inputs = s.inputs) ∧
      (0x2000 ≤ a.toNat → ∃ t, exec (.vrd a) s = .next t ∧ t.rsp = some .outOfRange ∧ t.vram = s.vram ∧
        t.tiles = s.tiles ∧ t.inputs = s.inputs)

/-- R51: the word of `VWR a, v` is `0x40000000 | (a << 8) | v`. In range, VWR answers a next state with response OK 0 in
which byte `a` is `v` and every other byte is as before, the eight pixels of the row of `a`'s pair (if `a < 0x1800`) are
decoded from the pair's bytes as they are after the store, and every other pixel is as before. Out of range it answers
`OutOfRange` and stores nothing. Abstractly the stored byte of any integer `v` is `v mod 256`. -/
def Obligations.VwrStoresAndUpdatesOneRow : Prop :=
  ∀ (a : AddrField) (v : Byte) (s : State), Canonical s →
    encode (.vwr a v) = 0x40000000 ||| a.setWidth 32 <<< 8 ||| v.setWidth 32 ∧
      (a.toNat < 0x2000 → ∃ t, exec (.vwr a v) s = .next t ∧ t.rsp = some (.ok 0) ∧ t.inputs = s.inputs ∧
        (∀ b < 0x2000, t.readVram b = if b = a.toNat then v else s.readVram b) ∧
        ∀ n < 384, ∀ r < 8, ∀ c < 8,
          t.pixel n r c =
            if a.toNat < 0x1800 ∧ n = a.toNat / 16 ∧ r = a.toNat % 16 / 2 then
              pv (bitOf (t.readVram (pairBase a.toNat)) (7 - c)) (bitOf (t.readVram (pairBase a.toNat + 1)) (7 - c))
            else s.pixel n r c) ∧
      (0x2000 ≤ a.toNat → ∃ t, exec (.vwr a v) s = .next t ∧ t.rsp = some .outOfRange ∧ t.vram = s.vram ∧
        t.tiles = s.tiles ∧ t.inputs = s.inputs) ∧
      ∀ x : Int, ((maskByte x).toNat : Int) = x % 256 ∧
        (a.toNat < 0x2000 → (vwr (addressOf a) x s).readVram a.toNat = maskByte x)

/-- R64: the word of `TPX p` is `0x80000000 | (p << 8)`; for `p < 0x6000` TPX answers a next state whose response is the
code of the pixel of tile `p[14:6]`, row `p[5:3]`, column `p[2:0]`, and otherwise it answers `OutOfRange`; in both cases
it writes nothing. -/
def Obligations.TpxReturnsThePixelCode : Prop :=
  ∀ (p : AddrField) (s : State),
    encode (.tpx p) = 0x80000000 ||| p.setWidth 32 <<< 8 ∧
      (p.toNat < 0x6000 → ∃ t, exec (.tpx p) s = .next t ∧
        t.rsp = some (.ok ((s.pixel (slice 14 6 p).toNat (slice 5 3 p).toNat (slice 2 0 p).toNat).code.setWidth 16)) ∧
        t.vram = s.vram ∧ t.tiles = s.tiles ∧ t.inputs = s.inputs) ∧
      (0x6000 ≤ p.toNat → ∃ t, exec (.tpx p) s = .next t ∧ t.rsp = some .outOfRange ∧ t.vram = s.vram ∧
        t.tiles = s.tiles ∧ t.inputs = s.inputs)

/-- R65: the word of `TROW q` is `0xC0000000 | (q << 8)`; for `q < 0x0C00` TROW answers a next state whose response is
the row word of tile `q[11:3]`, row `q[2:0]`, with the code of column `c` in bits `15-2c : 14-2c`; with a coherent cache
bit `15-2c` is bit `7-c` of the row's even byte and bit `14-2c` that of its odd byte; otherwise it answers `OutOfRange`;
in both cases it writes nothing. -/
def Obligations.TrowReturnsTheRowWord : Prop :=
  ∀ (q : AddrField) (s : State),
    encode (.trow q) = 0xC0000000 ||| q.setWidth 32 <<< 8 ∧
      (q.toNat < 0x0C00 → ∃ t d, exec (.trow q) s = .next t ∧ t.rsp = some (.ok d) ∧
        (∀ c < 8, d.extractLsb' (14 - 2 * c) 2 = (s.pixel (slice 11 3 q).toNat (slice 2 0 q).toNat c).code) ∧
        (Coherent s → ∀ c < 8,
          bitOf d (15 - 2 * c) = bitOf (s.readVram (2 * q.toNat)) (7 - c) ∧
            bitOf d (14 - 2 * c) = bitOf (s.readVram (2 * q.toNat + 1)) (7 - c)) ∧
        t.vram = s.vram ∧ t.tiles = s.tiles ∧ t.inputs = s.inputs) ∧
      (0x0C00 ≤ q.toNat → ∃ t, exec (.trow q) s = .next t ∧ t.rsp = some .outOfRange ∧ t.vram = s.vram ∧
        t.tiles = s.tiles ∧ t.inputs = s.inputs)

/-- The frame of VRD, TPX and TROW, which store nothing: at every address and every cell the next state reads as before,
and the master's inputs are untouched. -/
def Obligations.ReadCommandsFrame : Prop :=
  ∀ (i : Instr) (s t : State), (∀ a v, i ≠ .vwr a v) → exec i s = .next t →
    (∀ b, t.readVram b = s.readVram b) ∧ (∀ n r c, t.pixel n r c = s.pixel n r c) ∧ t.inputs = s.inputs

/-- The frame of VWR: every byte outside the one it stores to reads as before, that address being the integer its field
stands for; every pixel outside the row of that address reads as before; the master's inputs are untouched. Out of range
no byte and no pixel changes at all. -/
def Obligations.VwrFrame : Prop :=
  ∀ (a : AddrField) (v : Byte) (s t : State), Canonical s → exec (.vwr a v) s = .next t →
    (∀ b, b ≠ (addressOf a).toNat ∨ inRange (addressOf a) = false → t.readVram b = s.readVram b) ∧
      (∀ n < 384, ∀ r < 8, ∀ c < 8,
        (n, r) ≠ (tileIndex a.toNat, rowIndex a.toNat) ∨ triggersUpdate a.toNat = false →
          t.pixel n r c = s.pixel n r c) ∧
      t.inputs = s.inputs

/-! ## Properties of the update and of reads (rules R28, R59 to R63, R81) -/

/-- R28: VRD, TPX and TROW change no cell of either array, so a command answers after one of them, or after a command that
failed, as it would have before it; and over any number of steps a read gives the same response until a reset or a VWR in
range intervenes. A VWR repeated leaves the same state. -/
def Obligations.ReadsArePureAndRepeatable : Prop :=
  (∀ (i : Instr) (s t : State), (∀ a v, i ≠ .vwr a v) → exec i s = .next t →
    SameArrays t s ∧ exec i t = .next t) ∧
    (∀ (i j : Instr) (s t : State), exec j s = .next t → (∀ a v, j ≠ .vwr a v) ∨ t.rsp = some .outOfRange →
      exec i t = exec i s) ∧
    (∀ (i : Instr) (ins rest : List PortInput) (s t u u' : State),
      (∀ p ∈ ins, p.rst = false ∧
        (p.reqValid = true → ∀ a v, decode p.reqCmd = .vwr a v → 0x2000 ≤ a.toNat)) →
      s.inputs = ins ++ rest → runSteps ins.length s = .next t → exec i s = .next u → exec i t = .next u' →
        u'.rsp = u.rsp ∧ SameArrays u' u) ∧
    ∀ (a : AddrField) (v : Byte) (s t : State), Canonical s → exec (.vwr a v) s = .next t →
      exec (.vwr a v) t = .next t

/-- R59: for `a < 0x1800` a VWR changes pixel values only within row `(a%16)/2` of tile `a/16`. -/
def Obligations.VwrIsLocalToOneRow : Prop :=
  ∀ (a : AddrField) (v : Byte) (s t : State), Canonical s → a.toNat < 0x1800 → exec (.vwr a v) s = .next t →
    ∀ n < 384, ∀ r < 8, ∀ c < 8, t.pixel n r c ≠ s.pixel n r c → n = a.toNat / 16 ∧ r = a.toNat % 16 / 2

/-- R60: for `0x1800 <= a <= 0x1FFF` a VWR succeeds, stores its byte and leaves every pixel as it was; for `a >= 0x2000`
it fails and changes nothing at all. -/
def Obligations.TileMapWritesLeaveTheCache : Prop :=
  ∀ (a : AddrField) (v : Byte) (s : State), Canonical s → 0x1800 ≤ a.toNat →
    ∃ t, exec (.vwr a v) s = .next t ∧ t.tiles = s.tiles ∧
      (a.toNat ≤ 0x1FFF → t.rsp = some (.ok 0) ∧ t.readVram a.toNat = v) ∧
      (0x2000 ≤ a.toNat → t.rsp = some .outOfRange ∧ t.vram = s.vram)

/-- R61: writing the same value to the same address twice in a row leaves the same VRAM and the same cache after either
write; and what a VWR leaves depends only on the state before it, the address and `v & 0xFF`. -/
def Obligations.VwrIsIdempotent : Prop :=
  (∀ (a : AddrField) (v : Byte) (s t u : State), Canonical s → exec (.vwr a v) s = .next t →
    exec (.vwr a v) t = .next u → SameArrays t u) ∧
    ∀ (a v w : Int) (s : State), v % 256 = w % 256 → vwr a v s = vwr a w s

/-- R62: after a successful VWR to `a < 0x1800` its row is the split of the pair's two bytes; the two bytes of a pair may
be written in either order with the same final state, and of two writes to the same byte only the last counts. -/
def Obligations.RowIsAFunctionOfThePair : Prop :=
  (∀ (a : AddrField) (v : Byte) (s t : State), Canonical s → a.toNat < 0x1800 → exec (.vwr a v) s = .next t →
    ∀ c < 8, t.pixel (a.toNat / 16) (a.toNat % 16 / 2) c =
      splitRow (t.readVram (pairBase a.toNat)) (t.readVram (pairBase a.toNat + 1)) c) ∧
    (∀ (e o : AddrField) (v w : Byte) (s t u t' u' : State), Canonical s → e.toNat < 0x1800 →
      e.toNat = pairBase e.toNat → o.toNat = e.toNat + 1 →
      exec (.vwr e v) s = .next t → exec (.vwr o w) t = .next u →
      exec (.vwr o w) s = .next t' → exec (.vwr e v) t' = .next u' → u = u') ∧
    ∀ (a : AddrField) (v w : Byte) (s t u : State), Canonical s → a.toNat < 0x1800 →
      exec (.vwr a v) s = .next t → exec (.vwr a w) t = .next u → exec (.vwr a w) s = .next u

/-- R63: writing only the even byte of a pair whose odd byte is 0x00 leaves only `Zero` and `Two` in the row; writing only
the odd byte while the even byte is 0x00 leaves only `Zero` and `One`; and with any other byte the row is the split of
the new byte with the old one. -/
def Obligations.PartialPairRows : Prop :=
  ∀ (a : AddrField) (v : Byte) (s t : State), Canonical s → a.toNat < 0x1800 → exec (.vwr a v) s = .next t →
    ∀ c < 8,
      (a.toNat % 2 = 0 →
        t.pixel (a.toNat / 16) (a.toNat % 16 / 2) c = splitRow v (s.readVram (a.toNat + 1)) c ∧
          (s.readVram (a.toNat + 1) = 0 →
            t.pixel (a.toNat / 16) (a.toNat % 16 / 2) c = .zero ∨
              t.pixel (a.toNat / 16) (a.toNat % 16 / 2) c = .two)) ∧
        (a.toNat % 2 = 1 →
          t.pixel (a.toNat / 16) (a.toNat % 16 / 2) c = splitRow (s.readVram (a.toNat - 1)) v c ∧
            (s.readVram (a.toNat - 1) = 0 →
              t.pixel (a.toNat / 16) (a.toNat % 16 / 2) c = .zero ∨
                t.pixel (a.toNat / 16) (a.toNat % 16 / 2) c = .one))

/-- From R81: between the two VWRs of a pair, whichever byte is written first, a TROW of the row and a TPX of each of its
pixels return the intermediate row, decoded from the new byte and the old other byte; after the second VWR they return the
row of the two new bytes. -/
def Obligations.TrowSeesTheIntermediateRow : Prop :=
  ∀ (e o q : AddrField) (v w : Byte) (s t u : State), Canonical s → e.toNat < 0x1800 → e.toNat % 2 = 0 →
    o.toNat = e.toNat + 1 → q.toNat = e.toNat / 2 →
    (exec (.vwr e v) s = .next t → exec (.vwr o w) t = .next u →
      RowReadsAs t q v (s.readVram o.toNat) ∧ RowReadsAs u q v w) ∧
      (exec (.vwr o w) s = .next t → exec (.vwr e v) t = .next u →
        RowReadsAs t q (s.readVram e.toNat) w ∧ RowReadsAs u q v w)

/-! ## The exception (rules R22, R66, R68, R71) -/

/-- R66: the complete causes of `OutOfRange`: VRD and VWR with `addr >= 0x2000`, TPX with `addr >= 0x6000`, TROW with
`addr >= 0x0C00`, and nothing else; the update raises nothing, and neither does a reset: where
`OutOfRange` did not stand at the port before it, it does not stand there after it. -/
def Obligations.OutOfRangeCauses : Prop :=
  (∀ (i : Instr) (s : State), ∃ t, exec i s = .next t ∧
    (t.rsp = some .outOfRange ↔
      match i with
      | .vrd a => 0x2000 ≤ a.toNat
      | .vwr a _ => 0x2000 ≤ a.toNat
      | .tpx p => 0x6000 ≤ p.toNat
      | .trow q => 0x0C00 ≤ q.toNat)) ∧
    (∀ (a : Nat) (s : State), (tupd a s).rsp = s.rsp) ∧
      ∀ s : State, s.rsp ≠ some .outOfRange → s.applyReset.rsp ≠ some .outOfRange

/-- R68: a command that answers `OutOfRange` changes nothing: no VRAM cell, no pixel cell. -/
def Obligations.FailingCommandsChangeNothing : Prop :=
  ∀ (i : Instr) (s t : State), exec i s = .next t → t.rsp = some .outOfRange →
    SameArrays t s ∧ (∀ b, t.readVram b = s.readVram b) ∧ ∀ n r c, t.pixel n r c = s.pixel n r c

/-- R71: after a command that answered `OutOfRange` the next command is executed exactly as if the failing one had never
been issued. -/
def Obligations.ErrorsLeaveNoTrace : Prop :=
  ∀ (i j : Instr) (s t : State), exec i s = .next t → t.rsp = some .outOfRange → exec j t = exec j s

/-- From R22, R49: the block never subtracts 0x8000: every global address presented unconverted, 0x8000 to 0x9FFF, fails,
and the local address the bus computes from it is in range. -/
def Obligations.GlobalAddressesFailUntranslated : Prop :=
  ∀ (g l : AddrField) (v : Byte) (s : State), 0x8000 ≤ g.toNat → g.toNat ≤ 0x9FFF → l.toNat = g.toNat - 0x8000 →
    (exec (.vrd g) s = .next s.raiseOutOfRange ∧ exec (.vwr g v) s = .next s.raiseOutOfRange) ∧
      (∃ t d, exec (.vrd l) s = .next t ∧ t.rsp = some (.ok d)) ∧
      ∃ t d, exec (.vwr l v) s = .next t ∧ t.rsp = some (.ok d)

/-! ## Reset, the step and the ports (rules R19, R39, R77 to R79, R85) -/

/-- R19: after reset every VRAM byte is 0x00 and every pixel is `Zero`. -/
def Obligations.ResetStateIsAllZero : Prop :=
  (∀ a < 0x2000, State.reset.readVram a = 0x00) ∧
    ∀ t < 384, ∀ r < 8, ∀ c < 8, State.reset.pixel t r c = .zero

/-- From R77, R78: `rst` alone puts the block in the reset state from any state, and the block goes on to what the master
drives next. That no response stands at the port afterwards is the model's reading of "produces no response word" (log
entry 2). -/
def Obligations.ResetInputEstablishesTheResetState : Prop :=
  ∀ s : State, s.port.rst = true → s.port.reqValid = false →
    ∃ t, step s = .next t ∧ SameArrays t State.reset ∧ (∀ a < 0x2000, t.readVram a = 0x00) ∧
      (∀ n < 384, ∀ r < 8, ∀ c < 8, t.pixel n r c = .zero) ∧ t.rsp = none ∧ t.inputs = s.inputs.tail

/-- From R78: a reset together with a command is not defined, and the step refuses it by name; it refuses nothing else
and never faults. The refusal is the model's form of "a model refuses that case" (log entry 3). -/
def Obligations.OnlyResetDuringACommandIsRefused : Prop :=
  ∀ s : State, (s.port.rst = true ∧ s.port.reqValid = true → step s = .refused .resetDuringCommand) ∧
    (¬(s.port.rst = true ∧ s.port.reqValid = true) → ∃ t, step s = .next t)

/-- From R39: with `req_valid` = 0 and `rst` = 0 the block does nothing and neither array changes. That the response port
keeps its response is the model's choice (log entry 2). -/
def Obligations.IdleChangesNothing : Prop :=
  ∀ s : State, s.port.rst = false → s.port.reqValid = false →
    ∃ t, step s = .next t ∧ SameArrays t s ∧ t.rsp = s.rsp ∧ t.inputs = s.inputs.tail

/-- From R29, R39: a step with a command at the port accepts it and is `exec` of the decoded word. That the step takes the
head off the list of the master's inputs, and that the host's `withFetchWord` puts a command there, is the model's choice
(log entry 1). -/
def Obligations.StepRunsTheDecodedCommand : Prop :=
  (∀ s : State, s.port.rst = false → s.port.reqValid = true →
    step s = exec (decode s.port.reqCmd) { s with inputs := s.inputs.tail }) ∧
    ∀ (i : Instr) (s : State),
      step (s.withFetchWord 32 (encode i).toNat) = exec i { s with inputs := s.inputs.tail }

/-- R85: every command completes: from any state, any command word yields a next state and a response. -/
def Obligations.EveryCommandCompletes : Prop :=
  (∀ (i : Instr) (s : State), ∃ t r, exec i s = .next t ∧ t.rsp = some r) ∧
    ∀ (w : Word) (s : State), ∃ t r, step (s.drive (commandInput w)) = .next t ∧ t.rsp = some r

/-- R18: who may write what. In one step without a reset a VRAM cell changes only by a VWR to that very cell, and a pixel
cell only by the update that a VWR into its row's pair runs; VRD, TPX and TROW change nothing; a reset clears both
arrays. -/
def Obligations.OnlyVwrAndResetWrite : Prop :=
  (∀ s t : State, Canonical s → step s = .next t → s.port.rst = false →
    (∀ b < 0x2000, t.readVram b ≠ s.readVram b →
      s.port.reqValid = true ∧ ∃ a v, decode s.port.reqCmd = .vwr a v ∧ a.toNat = b ∧ t.readVram b = v) ∧
      ∀ n < 384, ∀ r < 8, ∀ c < 8, t.pixel n r c ≠ s.pixel n r c →
        s.port.reqValid = true ∧
          ∃ a v, decode s.port.reqCmd = .vwr a v ∧ pairBase a.toNat = 16 * n + 2 * r ∧
            t.pixel n r c = splitRow (t.readVram (16 * n + 2 * r)) (t.readVram (16 * n + 2 * r + 1)) c) ∧
    (∀ (i : Instr) (s t : State), (∀ a v, i ≠ .vwr a v) → exec i s = .next t → SameArrays t s) ∧
    ∀ s t : State, step s = .next t → s.port.rst = true → SameArrays t State.reset

/-! ## Invariants, history and isolation (rules R17, R31, R34, R35, R79) -/

/-- R79: the reset state satisfies the invariant: canonical arrays, and the cache is the decode of the store. -/
def Obligations.ResetMeetsTheInvariant : Prop := StateInv State.reset

/-- From R35: every step from a state that meets the invariant (canonical arrays, `tiles = DecodeAll(VRAM)`) leads to a
state that meets it. -/
def Obligations.EveryStepKeepsTheInvariant : Prop := ∀ s t : State, StateInv s → step s = .next t → StateInv t

/-- R35: in every state the block can reach from reset by any sequence of inputs, observed between commands,
`tiles = DecodeAll(VRAM)`. -/
def Obligations.CacheIsCoherentInEveryReachableState : Prop :=
  ∀ (ins : List PortInput) (n : Nat) (t : State),
    runSteps n { State.reset with inputs := ins } = .next t → Coherent t

/-- From R34: `DecodeAll` reads only the tile-data region, so with the invariant the whole cache is a function of the
bytes below 0x1800. -/
def Obligations.CacheIsAFunctionOfTheTileData : Prop :=
  (∀ V W : Nat → Byte, (∀ a < 0x1800, V a = W a) →
    ∀ t < 384, ∀ r < 8, ∀ c < 8, decodeAll V t r c = decodeAll W t r c) ∧
    ∀ s t : State, StateInv s → StateInv t → (∀ a < 0x1800, s.readVram a = t.readVram a) → s.tiles = t.tiles

/-- From R17: states whose arrays are equal cell for cell have equal arrays, and a command's response and the arrays it
leaves are a function of the arrays and the command alone. -/
def Obligations.ArraysAloneDecideEveryCommand : Prop :=
  (∀ s t : State, Canonical s → Canonical t → (∀ a < 0x2000, s.readVram a = t.readVram a) →
    (∀ n < 384, ∀ r < 8, ∀ c < 8, s.pixel n r c = t.pixel n r c) → SameArrays s t) ∧
    ∀ (i : Instr) (s s' t t' : State), SameArrays s s' → exec i s = .next t → exec i s' = .next t' →
      SameArrays t t' ∧ t.rsp = t'.rsp

/-- From R21, R35: the tile-map region is never decoded: two states that meet the invariant and hold the same tile data
answer every TPX and TROW alike, whatever their tile-map bytes are. -/
def Obligations.TileReadsDoNotSeeTheTileMap : Prop :=
  ∀ (i : Instr) (s s' t t' : State), (∃ p, i = .tpx p) ∨ (∃ q, i = .trow q) → StateInv s → StateInv s' →
    (∀ a < 0x1800, s.readVram a = s'.readVram a) → exec i s = .next t → exec i s' = .next t' → t.rsp = t'.rsp

/-- R31: from every state that meets the invariant, every sequence of legal inputs runs to its end. Afterwards each VRD
returns the most recent write to its address (`replay`: the last VWR since the last reset, 0x00 after a reset with none,
and the byte of the starting state where there was neither), and each TPX and each TROW returns the decode of the most
recent writes to the two bytes of its row. -/
def Obligations.ReadsReturnTheMostRecentWrites : Prop :=
  ∀ (ins rest : List PortInput) (s : State), StateInv s → s.inputs = ins ++ rest → (∀ p ∈ ins, p.legal = true) →
    ∃ t, runSteps ins.length s = .next t ∧ t.inputs = rest ∧
      (∀ a : AddrField, a.toNat < 0x2000 → ∃ u, exec (.vrd a) t = .next u ∧
        u.rsp = some (.ok ((replay s.readVram ins a.toNat).setWidth 16))) ∧
      (∀ n < 384, ∀ r < 8, ∀ c < 8, ∀ p : AddrField, p.toNat = n * 64 + r * 8 + c →
        ∃ u, exec (.tpx p) t = .next u ∧
          u.rsp = some (.ok ((decodeAll (replay s.readVram ins) n r c).code.setWidth 16))) ∧
      ∀ n < 384, ∀ r < 8, ∀ q : AddrField, q.toNat = n * 8 + r →
        ∃ u d, exec (.trow q) t = .next u ∧ u.rsp = some (.ok d) ∧
          ∀ c < 8, d.extractLsb' (14 - 2 * c) 2 = (decodeAll (replay s.readVram ins) n r c).code

/-- From R66, R71 and entry U2: over legal inputs a run saw an `OutOfRange` exactly when one of the inputs it took was a
command whose operand is out of range, whatever the other commands were. -/
def Obligations.RunsFailExactlyOnBadOperands : Prop :=
  ∀ (ins rest : List PortInput) (s : State), s.inputs = ins ++ rest → (∀ p ∈ ins, p.legal = true) →
    sawOutOfRange ins.length s =
      ins.any fun p => !p.rst && p.reqValid && !commandInRange (decode p.reqCmd)

/-! ## The listing and the wires (rules R39, R43, R47, R48) -/

/-- From R47, R48: what the word of each line carries. `VRD a` carries `a mod 65536`; `VWR a,v` carries `a mod 65536` and
`v & 0xFF`; `TPX t,r,c` carries `t*64 + r*8 + c` and `TPX @p` carries `p`; `TROW t,r` carries `t*8 + r` and `TROW @q` carries
`q`; VWP is the two words of `VWR a,b0` and `VWR a+1,b1`. Every other field is 0. The bound on `a + 1` of a VWP line is the
model's choice (log entry 10). -/
def Obligations.AssembledWordsCarryTheLinesOperands : Prop :=
  (∀ a : Int, -32768 ≤ a → a ≤ 65535 →
    ∃ w, assembleLine (.vrd a) = some [commandInput w] ∧ WordCarries w 0b00 (a % 65536) 0) ∧
    (∀ a v : Int, -32768 ≤ a → a ≤ 65535 →
      ∃ w, assembleLine (.vwr a v) = some [commandInput w] ∧ WordCarries w 0b01 (a % 65536) (v % 256)) ∧
    (∀ t r c : Int, 0 ≤ t → t < 1024 → 0 ≤ r → r < 8 → 0 ≤ c → c < 8 →
      ∃ w, assembleLine (.tpx t r c) = some [commandInput w] ∧ WordCarries w 0b10 (t * 64 + r * 8 + c) 0) ∧
    (∀ p : Int, 0 ≤ p → p ≤ 65535 →
      ∃ w, assembleLine (.tpxAt p) = some [commandInput w] ∧ WordCarries w 0b10 p 0) ∧
    (∀ t r : Int, 0 ≤ t → t < 8192 → 0 ≤ r → r < 8 →
      ∃ w, assembleLine (.trow t r) = some [commandInput w] ∧ WordCarries w 0b11 (t * 8 + r) 0) ∧
    (∀ q : Int, 0 ≤ q → q ≤ 65535 →
      ∃ w, assembleLine (.trowAt q) = some [commandInput w] ∧ WordCarries w 0b11 q 0) ∧
    ∀ a b0 b1 : Int, -32768 ≤ a → a + 1 ≤ 65535 →
      ∃ w w', assembleLine (.vwp a b0 b1) = some [commandInput w, commandInput w'] ∧
        WordCarries w 0b01 (a % 65536) (b0 % 256) ∧ WordCarries w' 0b01 ((a + 1) % 65536) (b1 % 256)

/-- From R47: a listing is assembled line by line, in order: the inputs it stands for are those of its lines one after
another, the commands among them decode to the lines' commands, a line that the assembler refuses makes it refuse the
listing, and from every state the inputs of an assembled listing run to their end. That a listing is a list of terms is the
model's choice (log entry 10), and so is the list of inputs that a run takes (log entry 1). -/
def Obligations.ListingsAreAssembledLineByLine : Prop :=
  (∀ ls : List AsmLine, (∀ l ∈ ls, l.wellFormed = true) →
    ∃ ps, assemble ls = some ps ∧ ps = ls.flatMap (fun l => (assembleLine l).getD []) ∧
      (ps.filter fun p => p.reqValid).map (fun p => decode p.reqCmd) = ls.flatMap assembleCommands) ∧
    (∀ (ls : List AsmLine) (l : AsmLine), l ∈ ls → l.wellFormed = false → assemble ls = none) ∧
    ∀ (ls : List AsmLine) (ps rest : List PortInput) (s : State), assemble ls = some ps → s.inputs = ps ++ rest →
      ∃ t, runSteps ps.length s = .next t ∧ t.inputs = rest

/-- From R39, R43: when a command has been accepted, `rsp_valid` is 1 and `rsp_word` is the word of its response: for VRD
the stored byte, for VWR 0, for TPX the pixel's code, for TROW the row word, each zero-extended to 32 bits, and 0x80000000
where the operand is out of range. -/
def Obligations.ResponseWordStandsAtThePort : Prop :=
  ∀ s : State, s.port.rst = false → s.port.reqValid = true →
    ∃ t, step s = .next t ∧ t.rspValid = true ∧
      t.rspWord = some
        (match decode s.port.reqCmd with
        | .vrd a => if a.toNat < 0x2000 then (s.readVram a.toNat).setWidth 32 else 0x80000000
        | .vwr a _ => if a.toNat < 0x2000 then 0 else 0x80000000
        | .tpx p =>
          if p.toNat < 0x6000 then (s.pixel (p.toNat / 64) (p.toNat / 8 % 8) (p.toNat % 8)).code.setWidth 32
          else 0x80000000
        | .trow q =>
          if q.toNat < 0x0C00 then (rowWord (s.pixel (q.toNat / 8) (q.toNat % 8))).setWidth 32 else 0x80000000)
end

