-- ==== Sys2Proof/Laws/Cells.lean ====
section
/-! SUPPORT. The laws of arrays held as lists of their cells: read after write, the canonical form is kept, and equal
cells make equal lists. -/

namespace Sys2Proof.Machine

variable {α : Type} {size : Nat} {blank : α}

/-- A key that is smaller than every listed key reads as blank. -/
theorem cellsGet_of_lt_all {m : List (Nat × α)} {k : Nat} (h : ∀ x ∈ m, k < x.1) : cellsGet blank m k = blank := by
  induction m with
  | nil => rfl
  | cons x rest ih =>
    have hx : x.1 ≠ k := Nat.ne_of_gt (h x (by simp))
    simp only [cellsGet, if_neg hx]
    exact ih fun y hy => h y (by simp [hy])

/-- In an array in canonical form a key from `size` on reads as blank. -/
theorem cellsGet_of_size_le {m : List (Nat × α)} (hm : cellsWf size blank m) {k : Nat} (hk : size ≤ k) :
    cellsGet blank m k = blank := by
  induction m with
  | nil => rfl
  | cons x rest ih =>
    have hx : x.1 ≠ k := by have := (hm.2 x (by simp)).1; omega
    simp only [cellsGet, if_neg hx]
    exact ih ⟨(List.pairwise_cons.1 hm.1).2, fun y hy => hm.2 y (by simp [hy])⟩

/-- The canonical form of the tail. -/
theorem cellsWf_tail {x : Nat × α} {rest : List (Nat × α)} (h : cellsWf size blank (x :: rest)) :
    cellsWf size blank rest :=
  ⟨(List.pairwise_cons.1 h.1).2, fun y hy => h.2 y (by simp [hy])⟩

section Writing

variable [DecidableEq α]

/-- Reading an array with an entry put in front whose key is smaller than every listed one. -/
theorem cellsGet_cellsCons {rest : List (Nat × α)} {k : Nat} {v : α} (h : ∀ x ∈ rest, k < x.1) (j : Nat) :
    cellsGet blank (cellsCons blank k v rest) j = if j = k then v else cellsGet blank rest j := by
  unfold cellsCons
  by_cases hv : v = blank
  · by_cases hj : j = k
    · subst hj; simp [hv, cellsGet_of_lt_all h]
    · simp [hv, hj]
  · by_cases hj : j = k
    · simp [hv, hj, cellsGet]
    · simp [hv, hj, cellsGet, Ne.symm hj]

/-- READ AFTER WRITE: the written key reads as the value written, every other key reads as before. -/
theorem cellsGet_cellsSet {m : List (Nat × α)} (hm : cellsWf size blank m) (k j : Nat) (v : α) :
    cellsGet blank (cellsSet blank m k v) j = if j = k then v else cellsGet blank m j := by
  induction m with
  | nil => exact cellsGet_cellsCons (by simp) j
  | cons x rest ih =>
    obtain ⟨i, w⟩ := x
    have hlt : ∀ y ∈ rest, i < y.1 := (List.pairwise_cons.1 hm.1).1
    unfold cellsSet
    by_cases h1 : k < i
    · rw [if_pos h1, cellsGet_cellsCons]
      intro y hy
      rcases List.mem_cons.1 hy with rfl | hy
      · exact h1
      · exact Nat.lt_trans h1 (hlt y hy)
    · by_cases h2 : k = i
      · subst h2
        rw [if_neg h1, if_pos rfl, cellsGet_cellsCons hlt]
        by_cases hj : j = k
        · simp [hj]
        · simp [hj, cellsGet, Ne.symm hj]
      · rw [if_neg h1, if_neg h2]
        simp only [cellsGet, ih (cellsWf_tail hm)]
        by_cases hj : i = j
        · subst hj; simp [Ne.symm h2]
        · simp [hj]

/-- What a listed entry of a written array is: the one written or one that was there. -/
theorem mem_cellsSet {m : List (Nat × α)} {k : Nat} {v : α} {x : Nat × α} (h : x ∈ cellsSet blank m k v) :
    (x = (k, v) ∧ v ≠ blank) ∨ x ∈ m := by
  have cons_case : ∀ {rest : List (Nat × α)}, x ∈ cellsCons blank k v rest → (x = (k, v) ∧ v ≠ blank) ∨ x ∈ rest := by
    intro rest hx
    unfold cellsCons at hx
    by_cases hv : v = blank
    · exact .inr (by simpa [hv] using hx)
    · rcases List.mem_cons.1 (by simpa [hv] using hx) with rfl | hx
      · exact .inl ⟨rfl, hv⟩
      · exact .inr hx
  induction m with
  | nil => exact cons_case h
  | cons y rest ih =>
    obtain ⟨i, w⟩ := y
    unfold cellsSet at h
    by_cases h1 : k < i
    · exact cons_case (by simpa [h1] using h)
    · by_cases h2 : k = i
      · rcases cons_case (by simpa [h1, h2] using h) with hx | hx
        · exact .inl hx
        · exact .inr (by simp [hx])
      · rcases List.mem_cons.1 (by simpa [h1, h2] using h) with rfl | hx
        · exact .inr (by simp)
        · exact (ih hx).imp_right fun hy => by simp [hy]

theorem cellsCons_wf {rest : List (Nat × α)} (hm : cellsWf size blank rest) {k : Nat} (hk : k < size)
    (hlt : ∀ x ∈ rest, k < x.1) (v : α) : cellsWf size blank (cellsCons blank k v rest) := by
  unfold cellsCons
  by_cases hv : v = blank
  · rwa [if_pos hv]
  · rw [if_neg hv]
    refine ⟨List.pairwise_cons.2 ⟨hlt, hm.1⟩, fun x hx => ?_⟩
    rcases List.mem_cons.1 hx with rfl | hx
    · exact ⟨hk, hv⟩
    · exact hm.2 x hx

/-- A write at a key of the array keeps the canonical form. -/
theorem cellsSet_wf {m : List (Nat × α)} (hm : cellsWf size blank m) {k : Nat} (hk : k < size) (v : α) :
    cellsWf size blank (cellsSet blank m k v) := by
  induction m with
  | nil => exact cellsCons_wf hm hk (by simp) v
  | cons x rest ih =>
    obtain ⟨i, w⟩ := x
    have hlt : ∀ y ∈ rest, i < y.1 := (List.pairwise_cons.1 hm.1).1
    have hrest := cellsWf_tail hm
    unfold cellsSet
    by_cases h1 : k < i
    · rw [if_pos h1]
      refine cellsCons_wf hm hk (fun y hy => ?_) v
      rcases List.mem_cons.1 hy with rfl | hy
      · exact h1
      · exact Nat.lt_trans h1 (hlt y hy)
    · by_cases h2 : k = i
      · subst h2
        rw [if_neg h1, if_pos rfl]
        exact cellsCons_wf hrest hk hlt v
      · rw [if_neg h1, if_neg h2]
        have hset := ih hrest
        refine ⟨List.pairwise_cons.2 ⟨fun y hy => ?_, hset.1⟩, fun y hy => ?_⟩
        · rcases mem_cellsSet hy with ⟨rfl, -⟩ | hy
          · simp only; omega
          · exact hlt y hy
        · rcases List.mem_cons.1 hy with rfl | hy
          · exact hm.2 _ (by simp)
          · exact hset.2 y hy

end Writing

/-- EQUAL CELLS MAKE EQUAL ARRAYS: two arrays in canonical form that read alike at every key are the same list. -/
theorem cells_ext {m n : List (Nat × α)} (hm : cellsWf size blank m) (hn : cellsWf size blank n)
    (h : ∀ k < size, cellsGet blank m k = cellsGet blank n k) : m = n := by
  have hall : ∀ k, cellsGet blank m k = cellsGet blank n k := fun k => by
    by_cases hk : k < size
    · exact h k hk
    · rw [cellsGet_of_size_le hm (by omega), cellsGet_of_size_le hn (by omega)]
  clear h
  induction m generalizing n with
  | nil =>
    cases n with
    | nil => rfl
    | cons y ys =>
      have := hall y.1
      simp only [cellsGet, if_pos] at this
      exact absurd this.symm (hn.2 y (by simp)).2
  | cons x xs ih =>
    have hx := List.pairwise_cons.1 hm.1
    have hxv := (hm.2 x (by simp)).2
    cases n with
    | nil =>
      have := hall x.1
      simp only [cellsGet, if_pos] at this
      exact absurd this hxv
    | cons y ys =>
      have hy := List.pairwise_cons.1 hn.1
      have hyv := (hn.2 y (by simp)).2
      have key : x.1 = y.1 := by
        rcases Nat.lt_trichotomy x.1 y.1 with hlt | heq | hgt
        · have := hall x.1
          rw [cellsGet_of_lt_all (m := y :: ys)] at this
          · simp only [cellsGet, if_pos] at this
            exact absurd this hxv
          · intro z hz
            rcases List.mem_cons.1 hz with rfl | hz
            · exact hlt
            · exact Nat.lt_trans hlt (hy.1 z hz)
        · exact heq
        · have := hall y.1
          rw [cellsGet_of_lt_all (m := x :: xs)] at this
          · simp only [cellsGet, if_pos] at this
            exact absurd this.symm hyv
          · intro z hz
            rcases List.mem_cons.1 hz with rfl | hz
            · exact hgt
            · exact Nat.lt_trans hgt (hx.1 z hz)
      have val : x.2 = y.2 := by
        have := hall x.1
        rw [key] at this
        simpa [cellsGet, key] using this
      have tails : xs = ys := ih (cellsWf_tail hm) (cellsWf_tail hn) fun k => by
        by_cases hk : k = x.1
        · rw [cellsGet_of_lt_all (fun z hz => hk ▸ hx.1 z hz),
            cellsGet_of_lt_all (fun z hz => hk ▸ key ▸ hy.1 z hz)]
        · have := hall k
          simpa [cellsGet, Ne.symm hk, key ▸ Ne.symm hk] using this
      rw [tails, Prod.ext key val]

end Sys2Proof.Machine
end

