-- ==== Sys2Proof/Laws/State.lean ====
section
/-! SUPPORT. One lemma for each field of the state and each update of it, so that no later proof unfolds a record
update. -/

namespace Sys2Proof.Machine

variable (s : State) (a t r c n : Nat) (v : Byte) (x : PixelValue) (d : RspData) (p : PortInput) (row : Nat → PixelValue)

@[simp] theorem reset_vram : State.reset.vram = [] := rfl
@[simp] theorem reset_tiles : State.reset.tiles = [] := rfl
@[simp] theorem reset_rsp : State.reset.rsp = none := rfl
@[simp] theorem reset_inputs : State.reset.inputs = [] := rfl

@[simp] theorem writeVram_tiles : (s.writeVram a v).tiles = s.tiles := rfl
@[simp] theorem writeVram_rsp : (s.writeVram a v).rsp = s.rsp := rfl
@[simp] theorem writeVram_inputs : (s.writeVram a v).inputs = s.inputs := rfl

@[simp] theorem writePixel_vram : (s.writePixel t r c x).vram = s.vram := rfl
@[simp] theorem writePixel_rsp : (s.writePixel t r c x).rsp = s.rsp := rfl
@[simp] theorem writePixel_inputs : (s.writePixel t r c x).inputs = s.inputs := rfl

@[simp] theorem writeColumns_vram : (State.writeColumns t r row n s).vram = s.vram := by
  induction n with
  | zero => rfl
  | succ n ih => exact ih

@[simp] theorem writeColumns_rsp : (State.writeColumns t r row n s).rsp = s.rsp := by
  induction n with
  | zero => rfl
  | succ n ih => exact ih

@[simp] theorem writeColumns_inputs : (State.writeColumns t r row n s).inputs = s.inputs := by
  induction n with
  | zero => rfl
  | succ n ih => exact ih

@[simp] theorem writeRow_vram : (s.writeRow t r row).vram = s.vram := writeColumns_vram ..
@[simp] theorem writeRow_rsp : (s.writeRow t r row).rsp = s.rsp := writeColumns_rsp ..
@[simp] theorem writeRow_inputs : (s.writeRow t r row).inputs = s.inputs := writeColumns_inputs ..

@[simp] theorem respond_vram : (s.respond d).vram = s.vram := rfl
@[simp] theorem respond_tiles : (s.respond d).tiles = s.tiles := rfl
@[simp] theorem respond_rsp : (s.respond d).rsp = some (.ok d) := rfl
@[simp] theorem respond_inputs : (s.respond d).inputs = s.inputs := rfl

@[simp] theorem raiseOutOfRange_vram : s.raiseOutOfRange.vram = s.vram := rfl
@[simp] theorem raiseOutOfRange_tiles : s.raiseOutOfRange.tiles = s.tiles := rfl
@[simp] theorem raiseOutOfRange_rsp : s.raiseOutOfRange.rsp = some .outOfRange := rfl
@[simp] theorem raiseOutOfRange_inputs : s.raiseOutOfRange.inputs = s.inputs := rfl

@[simp] theorem respond_rspValid : (s.respond d).rspValid = true := rfl
@[simp] theorem respond_rspWord : (s.respond d).rspWord = some (d.setWidth 32) := rfl
@[simp] theorem raiseOutOfRange_rspValid : s.raiseOutOfRange.rspValid = true := rfl
@[simp] theorem raiseOutOfRange_rspWord : s.raiseOutOfRange.rspWord = some 0x80000000 := rfl

@[simp] theorem consume_vram : s.consume.vram = s.vram := rfl
@[simp] theorem consume_tiles : s.consume.tiles = s.tiles := rfl
@[simp] theorem consume_rsp : s.consume.rsp = s.rsp := rfl
@[simp] theorem consume_inputs : s.consume.inputs = s.inputs.tail := rfl

@[simp] theorem drive_vram : (s.drive p).vram = s.vram := rfl
@[simp] theorem drive_tiles : (s.drive p).tiles = s.tiles := rfl
@[simp] theorem drive_rsp : (s.drive p).rsp = s.rsp := rfl
@[simp] theorem drive_inputs : (s.drive p).inputs = p :: s.inputs.tail := rfl
@[simp] theorem drive_port : (s.drive p).port = p := rfl

@[simp] theorem applyReset_vram : s.applyReset.vram = [] := rfl
@[simp] theorem applyReset_tiles : s.applyReset.tiles = [] := rfl
@[simp] theorem applyReset_rsp : s.applyReset.rsp = none := rfl
@[simp] theorem applyReset_inputs : s.applyReset.inputs = s.inputs := rfl

/-- A state's reading of a byte depends on its store alone. -/
theorem readVram_congr {s t : State} (h : s.vram = t.vram) (a : Nat) : s.readVram a = t.readVram a := by
  simp only [State.readVram, h]

/-- A state's reading of a pixel depends on its cache alone. -/
theorem pixel_congr {s t : State} (h : s.tiles = t.tiles) (n r c : Nat) : s.pixel n r c = t.pixel n r c := by
  simp only [State.pixel, h]

/-- What a write-back leaves in the cache depends on the cache alone. -/
theorem writeColumns_tiles_congr {s t : State} (h : s.tiles = t.tiles) (n r : Nat) (row : Nat → PixelValue) (k : Nat) :
    (State.writeColumns n r row k s).tiles = (State.writeColumns n r row k t).tiles := by
  induction k with
  | zero => exact h
  | succ k ih => simp only [State.writeColumns, State.writePixel, ih]

/-- Two states are equal when their four fields are. -/
theorem state_ext {s t : State} (h1 : s.vram = t.vram) (h2 : s.tiles = t.tiles) (h3 : s.rsp = t.rsp)
    (h4 : s.inputs = t.inputs) : s = t := by
  cases s; cases t; simp_all

end Sys2Proof.Machine
end

