-- ==== Sys2Proof/Laws/Memory.lean ====
section
/-! SUPPORT. What the operations over the VRAM store and the tile cache do: what each read gives after each write, and
that every operation keeps the canonical form. -/

namespace Sys2Proof.Machine

variable {s : State}

/-! ## The VRAM store -/

theorem readVram_writeVram (h : Memory.wf s.vram) (a b : Nat) (v : Byte) :
    (s.writeVram a v).readVram b = if b = a then v else s.readVram b :=
  cellsGet_cellsSet h a b v

theorem writeVram_wf (h : Memory.wf s.vram) {a : Nat} (ha : a < 0x2000) (v : Byte) : Memory.wf (s.writeVram a v).vram :=
  cellsSet_wf h ha v

theorem readVram_of_nil (h : s.vram = []) (a : Nat) : s.readVram a = 0 := by
  simp [State.readVram, h, cellsGet]

/-! ## The tile cache -/

/-- The pixel addresses of the cells inside a tile are told apart by row and column (rule R23). -/
theorem pixelAddr_inj {t r c t' r' c' : Nat} (hr : r < 8) (hc : c < 8) (hr' : r' < 8) (hc' : c' < 8) :
    pixelAddr t r c = pixelAddr t' r' c' ↔ t = t' ∧ r = r' ∧ c = c' := by
  unfold pixelAddr
  omega

theorem pixelAddr_lt {t r c : Nat} (ht : t < 384) (hr : r < 8) (hc : c < 8) : pixelAddr t r c < 0x6000 := by
  unfold pixelAddr
  omega

theorem pixel_of_nil (h : s.tiles = []) (t r c : Nat) : s.pixel t r c = .zero := by
  simp [State.pixel, h, cellsGet]

theorem pixel_writePixel (h : TileCache.wf s.tiles) {t r c t' r' c' : Nat} (hr : r < 8) (hc : c < 8) (hr' : r' < 8)
    (hc' : c' < 8) (x : PixelValue) :
    (s.writePixel t r c x).pixel t' r' c' = if t' = t ∧ r' = r ∧ c' = c then x else s.pixel t' r' c' := by
  have := cellsGet_cellsSet h (pixelAddr t r c) (pixelAddr t' r' c') x
  simp only [pixelAddr_inj hr' hc' hr hc] at this
  exact this

theorem writePixel_wf (h : TileCache.wf s.tiles) {t r c : Nat} (ht : t < 384) (hr : r < 8) (hc : c < 8)
    (x : PixelValue) : TileCache.wf (s.writePixel t r c x).tiles :=
  cellsSet_wf h (pixelAddr_lt ht hr hc) x

theorem writeColumns_wf (h : TileCache.wf s.tiles) {t r : Nat} (ht : t < 384) (hr : r < 8) (row : Nat → PixelValue)
    {n : Nat} (hn : n ≤ 8) : TileCache.wf (State.writeColumns t r row n s).tiles := by
  induction n with
  | zero => exact h
  | succ n ih => exact writePixel_wf (ih (by omega)) ht hr (by omega) _

theorem pixel_writeColumns (h : TileCache.wf s.tiles) {t r t' r' c' : Nat} (ht : t < 384) (hr : r < 8) (hr' : r' < 8)
    (hc' : c' < 8) (row : Nat → PixelValue) {n : Nat} (hn : n ≤ 8) :
    (State.writeColumns t r row n s).pixel t' r' c' =
      if t' = t ∧ r' = r ∧ c' < n then row c' else s.pixel t' r' c' := by
  induction n with
  | zero => simp [State.writeColumns]
  | succ n ih =>
    rw [State.writeColumns, pixel_writePixel (writeColumns_wf h ht hr row (by omega)) hr (by omega) hr' hc',
      ih (by omega)]
    by_cases hrow : t' = t ∧ r' = r
    · by_cases hc : c' = n
      · subst hc; simp [hrow]
      · have : c' < n + 1 ↔ c' < n := by omega
        simp [hrow, hc, this]
    · have h1 : ¬(t' = t ∧ r' = r ∧ c' = n) := fun h => hrow ⟨h.1, h.2.1⟩
      have h2 : ¬(t' = t ∧ r' = r ∧ c' < n) := fun h => hrow ⟨h.1, h.2.1⟩
      have h3 : ¬(t' = t ∧ r' = r ∧ c' < n + 1) := fun h => hrow ⟨h.1, h.2.1⟩
      simp only [if_neg h1, if_neg h2, if_neg h3]

theorem writeRow_wf (h : TileCache.wf s.tiles) {t r : Nat} (ht : t < 384) (hr : r < 8) (row : Nat → PixelValue) :
    TileCache.wf (s.writeRow t r row).tiles :=
  writeColumns_wf h ht hr row (Nat.le_refl 8)

/-- WRITE-BACK (rule R57): the eight cells of the row hold the row, every other cell is as before. -/
theorem pixel_writeRow (h : TileCache.wf s.tiles) {t r t' r' c' : Nat} (ht : t < 384) (hr : r < 8) (hr' : r' < 8)
    (hc' : c' < 8) (row : Nat → PixelValue) :
    (s.writeRow t r row).pixel t' r' c' = if t' = t ∧ r' = r then row c' else s.pixel t' r' c' := by
  have := pixel_writeColumns h (t' := t') ht hr hr' hc' row (Nat.le_refl 8)
  simpa [State.writeRow, hc'] using this

/-! ## Both arrays -/

/-- Equal cells make equal stores (rule R17). -/
theorem vram_ext {s t : State} (hs : Memory.wf s.vram) (ht : Memory.wf t.vram)
    (h : ∀ a < 0x2000, s.readVram a = t.readVram a) : s.vram = t.vram :=
  cells_ext hs ht h

/-- Equal cells make equal caches (rule R17). -/
theorem tiles_ext {s t : State} (hs : TileCache.wf s.tiles) (ht : TileCache.wf t.tiles)
    (h : ∀ n < 384, ∀ r < 8, ∀ c < 8, s.pixel n r c = t.pixel n r c) : s.tiles = t.tiles := by
  refine cells_ext hs ht fun k hk => ?_
  have hk' : k < 24576 := hk
  have split : pixelAddr (k / 64) (k / 8 % 8) (k % 8) = k := by unfold pixelAddr; omega
  have := h (k / 64) (by omega) (k / 8 % 8) (by omega) (k % 8) (by omega)
  simpa only [State.pixel, split] using this

end Sys2Proof.Machine
end

