-- ==== Sys2Proof/Laws/Update.lean ====
section
/-! SUPPORT. What the tile update does (rules R52 to R58): one lemma that gives every pixel after it. -/

namespace Sys2Proof.Machine

variable (s : State) (a : Nat)

@[simp] theorem tupd_vram : (tupd a s).vram = s.vram := by
  unfold tupd; split <;> simp

@[simp] theorem tupd_rsp : (tupd a s).rsp = s.rsp := by
  unfold tupd; split <;> simp

@[simp] theorem tupd_inputs : (tupd a s).inputs = s.inputs := by
  unfold tupd; split <;> simp

/-- The trigger of the update, as a comparison (rule R52). -/
theorem triggersUpdate_eq : triggersUpdate a = decide (a < 0x1800) := rfl

/-- At or above 0x1800 the update does nothing (rule R52). -/
theorem tupd_of_ge {a : Nat} (h : 0x1800 ≤ a) : tupd a s = s := by
  unfold tupd triggersUpdate
  rw [if_neg]
  simpa using h

/-- Below 0x1800 the update is the write-back of the row decoded from the pair (rule R58). -/
theorem tupd_of_lt {a : Nat} (h : a < 0x1800) :
    tupd a s =
      s.writeRow (tileIndex a) (rowIndex a) (splitRow (s.readVram (pairBase a)) (s.readVram (pairBase a + 1))) := by
  unfold tupd triggersUpdate
  rw [if_pos]
  simpa using h

theorem tileIndex_lt {a : Nat} (h : a < 0x1800) : tileIndex a < 384 := by unfold tileIndex; omega

theorem rowIndex_lt (a : Nat) : rowIndex a < 8 := by unfold rowIndex; omega

/-- `16*tileIndex + 2*rowIndex = pairBase` (rule R54). -/
theorem pairBase_eq (a : Nat) : 16 * tileIndex a + 2 * rowIndex a = pairBase a := by
  unfold tileIndex rowIndex pairBase; omega

/-- What the update leaves in the cache depends on the two arrays alone. -/
theorem tupd_tiles_congr {s t : State} (hv : s.vram = t.vram) (ht : s.tiles = t.tiles) (a : Nat) :
    (tupd a s).tiles = (tupd a t).tiles := by
  by_cases ha : a < 0x1800
  · rw [tupd_of_lt s ha, tupd_of_lt t ha, readVram_congr hv, readVram_congr hv]
    exact writeColumns_tiles_congr ht _ _ _ _
  · rw [tupd_of_ge s (by omega), tupd_of_ge t (by omega), ht]

/-- The two addresses of a pair have one pair base, one tile and one row (rule R53). -/
theorem pair_selection (a : Nat) :
    pairBase (pairBase a) = pairBase a ∧ pairBase (pairBase a + 1) = pairBase a ∧
      tileIndex (pairBase a + 1) = tileIndex (pairBase a) ∧ rowIndex (pairBase a + 1) = rowIndex (pairBase a) := by
  unfold pairBase tileIndex rowIndex
  omega

variable {s a}

theorem tupd_tiles_wf (h : TileCache.wf s.tiles) : TileCache.wf (tupd a s).tiles := by
  by_cases ha : a < 0x1800
  · rw [tupd_of_lt s ha]
    exact writeRow_wf h (tileIndex_lt ha) (rowIndex_lt a) _
  · rwa [tupd_of_ge s (by omega)]

/-- THE UPDATE, PIXEL BY PIXEL: the row of the pair is the split of the two bytes the store holds, every other pixel is
as before; and nothing changes at or above 0x1800. -/
theorem pixel_tupd (h : TileCache.wf s.tiles) {t r c : Nat} (hr : r < 8) (hc : c < 8) :
    (tupd a s).pixel t r c =
      if a < 0x1800 ∧ t = tileIndex a ∧ r = rowIndex a then
        splitRow (s.readVram (pairBase a)) (s.readVram (pairBase a + 1)) c
      else s.pixel t r c := by
  by_cases ha : a < 0x1800
  · rw [tupd_of_lt s ha, pixel_writeRow h (tileIndex_lt ha) (rowIndex_lt a) hr hc]
    simp [ha]
  · rw [tupd_of_ge s (by omega)]
    simp [ha]

end Sys2Proof.Machine
end

