-- ==== Sys2Proof/Laws/Commands.lean ====
section
/-! SUPPORT. What each command does: its two cases, in range and out of range, and what it leaves unchanged. -/

namespace Sys2Proof.Machine

variable {s t : State}

/-! ## The bounds checks on the fields -/

theorem inRange_addressOf (a : AddrField) : inRange (addressOf a) = decide (a.toNat < 0x2000) := by
  simp [inRange, addressOf]

theorem pixelInRange_addressOf (p : AddrField) : pixelInRange (addressOf p) = decide (p.toNat < 0x6000) := by
  simp [pixelInRange, addressOf]

theorem rowInRange_addressOf (q : AddrField) : rowInRange (addressOf q) = decide (q.toNat < 0x0C00) := by
  simp [rowInRange, addressOf]

/-- The field `data` already is the masked value (rule R41). -/
theorem maskByte_toNat (v : Byte) : maskByte (Int.ofNat v.toNat) = v := by
  simp [maskByte]

/-! ## The meanings, case by case -/

theorem execVrd_of_lt {a : AddrField} (h : a.toNat < 0x2000) (s : State) :
    execVrd a s = .next (s.respond ((s.readVram a.toNat).setWidth 16)) := by
  rw [execVrd, vrd, inRange_addressOf]
  simp [h, addressOf]

theorem execVrd_of_ge {a : AddrField} (h : 0x2000 ≤ a.toNat) (s : State) : execVrd a s = .next s.raiseOutOfRange := by
  simp [execVrd, vrd, inRange_addressOf, Nat.not_lt.2 h]

theorem execVwr_of_lt {a : AddrField} (h : a.toNat < 0x2000) (v : Byte) (s : State) :
    execVwr a v s = .next ((tupd a.toNat (s.writeVram a.toNat v)).respond 0) := by
  rw [execVwr, vwr, inRange_addressOf, maskByte_toNat]
  simp [h, addressOf]

theorem execVwr_of_ge {a : AddrField} (h : 0x2000 ≤ a.toNat) (v : Byte) (s : State) :
    execVwr a v s = .next s.raiseOutOfRange := by
  simp [execVwr, vwr, inRange_addressOf, Nat.not_lt.2 h]

theorem execTpx_of_lt {p : AddrField} (h : p.toNat < 0x6000) (s : State) :
    execTpx p s =
      .next (s.respond ((s.pixel (p.toNat / 64) (p.toNat / 8 % 8) (p.toNat % 8)).code.setWidth 16)) := by
  rw [execTpx, tpx, pixelInRange_addressOf]
  simp [h, addressOf, pixelTile, pixelRow, pixelCol]

theorem execTpx_of_ge {p : AddrField} (h : 0x6000 ≤ p.toNat) (s : State) : execTpx p s = .next s.raiseOutOfRange := by
  simp [execTpx, tpx, pixelInRange_addressOf, Nat.not_lt.2 h]

theorem execTrow_of_lt {q : AddrField} (h : q.toNat < 0x0C00) (s : State) :
    execTrow q s = .next (s.respond (rowWord (s.pixel (q.toNat / 8) (q.toNat % 8)))) := by
  rw [execTrow, trow, rowInRange_addressOf]
  simp [h, addressOf, rowTile, rowRow]

theorem execTrow_of_ge {q : AddrField} (h : 0x0C00 ≤ q.toNat) (s : State) :
    execTrow q s = .next s.raiseOutOfRange := by
  simp [execTrow, trow, rowInRange_addressOf, Nat.not_lt.2 h]

/-! ## VWR, byte by byte and pixel by pixel -/

/-- The store after a VWR in range. -/
theorem readVram_vwr (h : Memory.wf s.vram) (a b : Nat) (v : Byte) (d : RspData) :
    ((tupd a (s.writeVram a v)).respond d).readVram b = if b = a then v else s.readVram b :=
  (readVram_congr (by simp) b).trans (readVram_writeVram h a b v)

/-- The cache after a VWR in range: the row of the pair is the split of the pair's bytes after the store. -/
theorem pixel_vwr (h : TileCache.wf s.tiles) (a : Nat) (v : Byte) (d : RspData) {n r c : Nat} (hr : r < 8)
    (hc : c < 8) :
    ((tupd a (s.writeVram a v)).respond d).pixel n r c =
      if a < 0x1800 ∧ n = tileIndex a ∧ r = rowIndex a then
        splitRow ((s.writeVram a v).readVram (pairBase a)) ((s.writeVram a v).readVram (pairBase a + 1)) c
      else s.pixel n r c :=
  (pixel_congr (by simp) n r c).trans (pixel_tupd (s := s.writeVram a v) h hr hc)

/-- WHAT A COMMAND CAN DO: it always answers a next state; that state keeps both arrays, or it is the one a VWR in range
leaves. Either way the response port holds a response and the inputs are untouched. -/
theorem exec_cases (i : Instr) (s : State) :
    ∃ t, exec i s = .next t ∧ t.inputs = s.inputs ∧ t.rsp.isSome ∧
      ((t.vram = s.vram ∧ t.tiles = s.tiles) ∨
        ∃ a v, i = .vwr a v ∧ a.toNat < 0x2000 ∧ t = (tupd a.toNat (s.writeVram a.toNat v)).respond 0) := by
  cases i with
  | vrd a =>
    by_cases h : a.toNat < 0x2000
    · exact ⟨_, execVrd_of_lt h s, by simp⟩
    · exact ⟨_, execVrd_of_ge (by omega) s, by simp⟩
  | vwr a v =>
    by_cases h : a.toNat < 0x2000
    · exact ⟨_, execVwr_of_lt h v s, by simp, by simp, .inr ⟨a, v, rfl, h, rfl⟩⟩
    · exact ⟨_, execVwr_of_ge (by omega) v s, by simp⟩
  | tpx p =>
    by_cases h : p.toNat < 0x6000
    · exact ⟨_, execTpx_of_lt h s, by simp⟩
    · exact ⟨_, execTpx_of_ge (by omega) s, by simp⟩
  | trow q =>
    by_cases h : q.toNat < 0x0C00
    · exact ⟨_, execTrow_of_lt h s, by simp⟩
    · exact ⟨_, execTrow_of_ge (by omega) s, by simp⟩

end Sys2Proof.Machine
end

