-- ==== Sys2Proof/Laws/Encoding.lean ====
section
/-! SUPPORT. The fields of command words, bit by bit, and the word that has given fields (rules R40, R42). -/

namespace Sys2Proof

variable (w : Word) (op : BitVec 2) (rsv : BitVec 6) (addr : AddrField) (data : Byte)

theorem bitOf_opField (i : Nat) : bitOf (opField w) i = (decide (i < 2) && bitOf w (30 + i)) := by
  simp [opField, slice, bitOf, BitVec.extractLsb]

theorem bitOf_rsvField (i : Nat) : bitOf (rsvField w) i = (decide (i < 6) && bitOf w (24 + i)) := by
  simp [rsvField, slice, bitOf, BitVec.extractLsb]

theorem bitOf_addrField (i : Nat) : bitOf (addrField w) i = (decide (i < 16) && bitOf w (8 + i)) := by
  simp [addrField, slice, bitOf, BitVec.extractLsb]

theorem bitOf_dataField (i : Nat) : bitOf (dataField w) i = (decide (i < 8) && bitOf w i) := by
  simp [dataField, slice, bitOf, BitVec.extractLsb]

/-- The word of four fields, bit by bit. -/
theorem bitOf_commandWord (i : Nat) :
    bitOf (commandWord op rsv addr data) i =
      if i < 8 then bitOf data i
      else if i < 24 then bitOf addr (i - 8)
      else if i < 30 then bitOf rsv (i - 24)
      else bitOf op (i - 30) := by
  unfold commandWord bitOf
  rw [BitVec.getLsbD_append, BitVec.getLsbD_append, BitVec.getLsbD_append]
  by_cases h1 : i < 8
  · simp [h1]
  · by_cases h2 : i < 24
    · have : i - 8 < 16 := by omega
      simp [h1, h2, this]
    · have h2' : ¬i - 8 < 16 := by omega
      by_cases h3 : i < 30
      · have : i - 8 - 16 = i - 24 := by omega
        have : i - 24 < 6 := by omega
        simp [*]
      · have : ¬i - 8 - 16 < 6 := by omega
        have : i - 8 - 16 - 6 = i - 30 := by omega
        simp [*]

theorem opField_commandWord : opField (commandWord op rsv addr data) = op := by
  refine BitVec.eq_of_getLsbD_eq fun i hi => ?_
  have := bitOf_opField (commandWord op rsv addr data) i
  have h1 : ¬30 + i < 8 := by omega
  have h2 : ¬30 + i < 24 := by omega
  rw [bitOf_commandWord, if_neg h1, if_neg h2] at this
  simpa [hi, bitOf] using this

theorem rsvField_commandWord : rsvField (commandWord op rsv addr data) = rsv := by
  refine BitVec.eq_of_getLsbD_eq fun i hi => ?_
  have := bitOf_rsvField (commandWord op rsv addr data) i
  rw [bitOf_commandWord, if_neg (by omega), if_neg (by omega), if_pos (by omega)] at this
  simpa [hi, bitOf] using this

theorem addrField_commandWord : addrField (commandWord op rsv addr data) = addr := by
  refine BitVec.eq_of_getLsbD_eq fun i hi => ?_
  have := bitOf_addrField (commandWord op rsv addr data) i
  rw [bitOf_commandWord] at this
  have h : 8 + i < 24 := by omega
  simpa [hi, h, bitOf] using this

theorem dataField_commandWord : dataField (commandWord op rsv addr data) = data := by
  refine BitVec.eq_of_getLsbD_eq fun i hi => ?_
  have := bitOf_dataField (commandWord op rsv addr data) i
  rw [bitOf_commandWord] at this
  simpa [hi, bitOf] using this

/-- A word is the word of its four fields. -/
theorem commandWord_fields : commandWord (opField w) (rsvField w) (addrField w) (dataField w) = w := by
  refine BitVec.eq_of_getLsbD_eq fun i hi => ?_
  have := bitOf_commandWord (opField w) (rsvField w) (addrField w) (dataField w) i
  rw [bitOf_opField, bitOf_rsvField, bitOf_addrField, bitOf_dataField] at this
  refine this.trans ?_
  by_cases h1 : i < 8
  · simp [h1]
  · by_cases h2 : i < 24
    · have : i - 8 < 16 := by omega
      have : 8 + (i - 8) = i := by omega
      simp [*]
    · by_cases h3 : i < 30
      · have : i - 24 < 6 := by omega
        have : 24 + (i - 24) = i := by omega
        simp [*]
      · have : i - 30 < 2 := by omega
        have : 30 + (i - 30) = i := by omega
        simp [*]

/-- The four values of the field `op`. -/
theorem opField_cases : opField w = 0b00 ∨ opField w = 0b01 ∨ opField w = 0b10 ∨ opField w = 0b11 := by
  generalize opField w = k
  revert k
  decide

/-- The decoder reads the field `op`, and then only the fields that its value uses (rule R42). -/
theorem decode_of_op :
    (opField w = 0b00 → decode w = .vrd (addrField w)) ∧
      (opField w = 0b01 → decode w = .vwr (addrField w) (dataField w)) ∧
      (opField w = 0b10 → decode w = .tpx (addrField w)) ∧ (opField w = 0b11 → decode w = .trow (addrField w)) := by
  have h1 : bitOf w 31 = bitOf (opField w) 1 := by rw [bitOf_opField]; rfl
  have h0 : bitOf w 30 = bitOf (opField w) 0 := by rw [bitOf_opField]; rfl
  refine ⟨fun h => ?_, fun h => ?_, fun h => ?_, fun h => ?_⟩ <;> unfold decode <;> rw [h1, h0, h] <;> rfl

end Sys2Proof
end

