-- ==== Sys2Proof/Laws/Listing.lean ====
section
/-! SUPPORT. What the assembler does with a line and with a listing (rules R41, R47, R48). -/

namespace Sys2Proof.Machine

/-- The field that carries an integer address holds it modulo 65536 (rule R41). -/
theorem fieldOf_toNat (a : Int) : ((fieldOf a).toNat : Int) = a % 65536 := by
  simp [fieldOf]
  omega

/-- The masked byte is the value modulo 256 (rule R51). -/
theorem maskByte_toNat_int (v : Int) : ((maskByte v).toNat : Int) = v % 256 := by
  simp [maskByte]
  omega

/-- A well-formed line other than RESET presents the words of its commands. -/
theorem assembleLine_of_wellFormed {l : AsmLine} (hl : l ≠ .reset) (h : l.wellFormed = true) :
    assembleLine l = some ((assembleCommands l).map fun i => commandInput (encode i)) := by
  cases l <;> first | exact absurd rfl hl | simp [assembleLine, h]

/-- A line that is not well formed is refused. -/
theorem assembleLine_of_not_wellFormed {l : AsmLine} (h : l.wellFormed = false) : assembleLine l = none := by
  simp [assembleLine, h]

theorem assemble_nil : assemble [] = some [] := rfl

/-- A listing with an accepted first line is that line's inputs and then the rest's. -/
theorem assemble_cons_of_some {l : AsmLine} {ls : List AsmLine} {ps qs : List PortInput} (h : assembleLine l = some ps)
    (h' : assemble ls = some qs) : assemble (l :: ls) = some (ps ++ qs) := by
  simp [assemble, h, h']

/-- What an assembled listing is made of: its first line's inputs and the rest's. -/
theorem assemble_cons_eq_some {l : AsmLine} {ls : List AsmLine} {ps : List PortInput}
    (h : assemble (l :: ls) = some ps) :
    ∃ qs rs, assembleLine l = some qs ∧ assemble ls = some rs ∧ ps = qs ++ rs := by
  unfold assemble at h
  split at h
  · exact ⟨_, _, ‹_›, ‹_›, by injection h with h; exact h.symm⟩
  · cases h

end Sys2Proof.Machine
end

