-- ==== Sys2Proof/Laws/PerInstr.lean ====
section
/-! SUPPORT. What is said of every instruction as syntax, one lemma a constructor: the family Canonical. -/

namespace Sys2Proof.Laws

/-- The word that stands for an instruction is one that a master should drive: it is canonical, and its address field is
the instruction's address operand (rules R40, R44). -/
def Canonical.Statement (i : Instr) : Prop := canonicalWord (encode i) = true ∧ addrField (encode i) = i.addr

theorem rsv_encode (op : BitVec 2) (addr : AddrField) (data : Byte) : rsvField (commandWord op 0 addr data) = 0 := by
  refine BitVec.eq_of_getLsbD_eq fun i hi => ?_
  have h1 : ¬24 + i < 8 := by omega
  have h2 : ¬24 + i < 24 := by omega
  have h3 : 24 + i < 30 := by omega
  refine (bitOf_rsvField _ i).trans ?_
  rw [bitOf_commandWord, if_neg h1, if_neg h2, if_pos h3]
  simp [bitOf]

/-- A word with `rsv` = 0 is canonical when it is a VWR or its `data` is 0. -/
theorem canonicalWord_commandWord {op : BitVec 2} {data : Byte} (addr : AddrField) (h : op = 1 ∨ data = 0) :
    canonicalWord (commandWord op 0 addr data) = true := by
  have hr : slice 29 24 (commandWord op 0 addr data) = 0 := rsv_encode op addr data
  have ho : slice 31 30 (commandWord op 0 addr data) = op := opField_commandWord op 0 addr data
  have hd : slice 7 0 (commandWord op 0 addr data) = data := dataField_commandWord op 0 addr data
  simp only [canonicalWord, Bool.and_eq_true, Bool.or_eq_true, beq_iff_eq]
  exact ⟨hr, h.imp (fun e => ho.trans e) fun e => hd.trans e⟩

theorem Canonical.vrd (a : AddrField) : Canonical.Statement (.vrd a) :=
  ⟨canonicalWord_commandWord a (.inr rfl), addrField_commandWord ..⟩

theorem Canonical.vwr (a : AddrField) (v : Byte) : Canonical.Statement (.vwr a v) :=
  ⟨canonicalWord_commandWord a (.inl rfl), addrField_commandWord ..⟩

theorem Canonical.tpx (p : AddrField) : Canonical.Statement (.tpx p) :=
  ⟨canonicalWord_commandWord p (.inr rfl), addrField_commandWord ..⟩

theorem Canonical.trow (q : AddrField) : Canonical.Statement (.trow q) :=
  ⟨canonicalWord_commandWord q (.inr rfl), addrField_commandWord ..⟩

end Sys2Proof.Laws
end

