-- ==== Sys2Proof/Laws/Reads.lean ====
section
/-! SUPPORT. The response word's status, the row word column by column (rule R65) and the code of a split pixel bit by bit (rule R56). -/

namespace Sys2Proof.Machine

/-- Column `c` stands in bits `15 - 2c : 14 - 2c` of the row word (rule R65). -/
theorem bitOf_rowWord (row : Nat → PixelValue) {c : Nat} (hc : c < 8) :
    bitOf (rowWord row) (15 - 2 * c) = bitOf (row c).code 1 ∧
      bitOf (rowWord row) (14 - 2 * c) = bitOf (row c).code 0 := by
  simp only [rowWord, rowWordUpTo, bitOf, BitVec.getLsbD_or, BitVec.getLsbD_shiftLeft, BitVec.getLsbD_setWidth]
  interval_cases c <;> simp

/-- The two bits of column `c`, as one field of the row word (rule R65). -/
theorem rowWord_column (row : Nat → PixelValue) {c : Nat} (hc : c < 8) :
    (rowWord row).extractLsb' (14 - 2 * c) 2 = (row c).code := by
  have h := bitOf_rowWord row hc
  have e : 14 - 2 * c + 1 = 15 - 2 * c := by omega
  refine BitVec.eq_of_getLsbD_eq fun i hi => ?_
  simp only [BitVec.getLsbD_extractLsb', hi, decide_true, Bool.true_and]
  interval_cases i
  · exact h.2
  · rw [e]
    exact h.1

/-- Bit 1 of a split pixel's code is the plane1 bit, bit 0 the plane2 bit (rule R56). -/
theorem bitOf_code_pv (b1 b2 : Bool) : bitOf (pv b1 b2).code 1 = b1 ∧ bitOf (pv b1 b2).code 0 = b2 := by
  cases b1 <;> cases b2 <;> decide

/-- Bit 31 of the response word is the status `err` (rule R43). -/
theorem bitOf_word_err (r : Response) : bitOf r.word 31 = r.err := by
  cases r with
  | ok d => simp [Response.word, Response.err, bitOf]
  | outOfRange => decide

end Sys2Proof.Machine
end

