-- ==== Sys2Proof/Laws/Step.lean ====
section
/-! SUPPORT. What a step can do, said once. -/

namespace Sys2Proof.Machine

variable {s : State}

theorem step_reset (h1 : s.port.rst = true) (h2 : s.port.reqValid = false) : step s = .next s.consume.applyReset := by
  simp [step, h1, h2]

theorem step_command (h1 : s.port.rst = false) (h2 : s.port.reqValid = true) :
    step s = exec (decode s.port.reqCmd) s.consume := by
  simp [step, h1, h2]

theorem step_idle (h1 : s.port.rst = false) (h2 : s.port.reqValid = false) : step s = .next s.consume := by
  simp [step, h1, h2]

theorem step_refused (h1 : s.port.rst = true) (h2 : s.port.reqValid = true) : step s = .refused .resetDuringCommand := by
  simp [step, h1, h2]

/-- WHAT A STEP CAN DO when it answers a next state: a reset, a command, or nothing. -/
theorem step_cases {t : State} (h : step s = .next t) :
    (s.port.rst = true ∧ s.port.reqValid = false ∧ t = s.consume.applyReset) ∨
      (s.port.rst = false ∧ s.port.reqValid = true ∧ exec (decode s.port.reqCmd) s.consume = .next t) ∨
      (s.port.rst = false ∧ s.port.reqValid = false ∧ t = s.consume) := by
  cases h1 : s.port.rst <;> cases h2 : s.port.reqValid
  · rw [step_idle h1 h2] at h
    exact .inr (.inr ⟨rfl, rfl, by injection h with h; exact h.symm⟩)
  · rw [step_command h1 h2] at h
    exact .inr (.inl ⟨rfl, rfl, h⟩)
  · rw [step_reset h1 h2] at h
    exact .inl ⟨rfl, rfl, by injection h with h; exact h.symm⟩
  · rw [step_refused h1 h2] at h
    cases h

/-- A step never faults. -/
theorem step_ne_fault (r : Fault) : step s ≠ .fault r := by cases r

/-! ## Runs, one step at a time -/

theorem runSteps_zero (s : State) : runSteps 0 s = .next s := rfl

theorem coreRun_succ_of_next (M : Host.Core) {s t : M.State} (h : M.step s = .next t) (n : Nat) :
    M.run (n + 1) s = M.run n t := by
  rw [Host.Core.run, h]

theorem coreRun_succ_of_refused (M : Host.Core) {s : M.State} {r : M.Refusal} (h : M.step s = .refused r) (n : Nat) :
    M.run (n + 1) s = .refused r := by
  rw [Host.Core.run, h]

theorem runSteps_succ_of_next {t : State} (h : step s = .next t) (n : Nat) : runSteps (n + 1) s = runSteps n t :=
  coreRun_succ_of_next core h n

theorem runSteps_succ_of_refused {r : Refusal} (h : step s = .refused r) (n : Nat) :
    runSteps (n + 1) s = .refused r :=
  coreRun_succ_of_refused core h n

/-! ## What VWR can do, and what every command can do, in terms of the state it leaves -/

/-- WHAT A VWR IN RANGE DOES, read off the state it leaves: its byte, its row as the split of the pair's bytes in that
very state, everything else as before, and the canonical form kept. -/
theorem vwr_next {a : AddrField} {v : Byte} {t : State} (hs : Canonical s) (ha : a.toNat < 0x2000)
    (h : exec (.vwr a v) s = .next t) :
    Canonical t ∧ t.rsp = some (.ok 0) ∧ t.inputs = s.inputs ∧
      (∀ b, t.readVram b = if b = a.toNat then v else s.readVram b) ∧
      ∀ n r c, r < 8 → c < 8 →
        t.pixel n r c =
          if a.toNat < 0x1800 ∧ n = tileIndex a.toNat ∧ r = rowIndex a.toNat then
            splitRow (t.readVram (pairBase a.toNat)) (t.readVram (pairBase a.toNat + 1)) c
          else s.pixel n r c := by
  rw [show exec (.vwr a v) s = _ from execVwr_of_lt ha v s] at h
  injection h with h
  subst h
  refine ⟨⟨?_, ?_⟩, rfl, by simp, fun b => readVram_vwr hs.1 .., fun n r c hr hc => ?_⟩
  · simpa using writeVram_wf hs.1 ha v
  · simpa using tupd_tiles_wf (s := s.writeVram a.toNat v) hs.2
  · have key : ∀ b, ((tupd a.toNat (s.writeVram a.toNat v)).respond 0).readVram b = (s.writeVram a.toNat v).readVram b :=
      fun b => readVram_congr (by simp) b
    rw [pixel_vwr hs.2 _ _ _ hr hc, key, key]

/-- Every command keeps the canonical form of both arrays. -/
theorem exec_canonical {i : Instr} {t : State} (hs : Canonical s) (h : exec i s = .next t) : Canonical t := by
  obtain ⟨t', h', -, -, ⟨hv, ht⟩ | ⟨a, v, rfl, ha, -⟩⟩ := exec_cases i s
  · rw [h] at h'
    injection h' with h'
    subst h'
    exact ⟨hv ▸ hs.1, ht ▸ hs.2⟩
  · exact (vwr_next hs ha h).1

/-- A command reads the two arrays and hands the inputs on; the response that stood at the port is not read. -/
theorem exec_setRsp (i : Instr) (s : State) (r : Option Response) : exec i { s with rsp := r } = exec i s := by
  cases i with
  | vrd a =>
    by_cases h : a.toNat < 0x2000
    · exact (execVrd_of_lt h _).trans (execVrd_of_lt h s).symm
    · exact (execVrd_of_ge (by omega) _).trans (execVrd_of_ge (by omega) s).symm
  | vwr a v =>
    by_cases h : a.toNat < 0x2000
    · show execVwr a v _ = execVwr a v s
      rw [execVwr_of_lt h, execVwr_of_lt h]
      refine congrArg _ (state_ext ?_ ?_ rfl ?_)
      · simp [State.writeVram]
      · show (tupd _ _).tiles = (tupd _ _).tiles
        exact tupd_tiles_congr (by simp [State.writeVram]) (by simp [State.writeVram]) _
      · simp [State.writeVram]
    · exact (execVwr_of_ge (by omega) v _).trans (execVwr_of_ge (by omega) v s).symm
  | tpx p =>
    by_cases h : p.toNat < 0x6000
    · exact (execTpx_of_lt h _).trans (execTpx_of_lt h s).symm
    · exact (execTpx_of_ge (by omega) _).trans (execTpx_of_ge (by omega) s).symm
  | trow q =>
    by_cases h : q.toNat < 0x0C00
    · exact (execTrow_of_lt h _).trans (execTrow_of_lt h s).symm
    · exact (execTrow_of_ge (by omega) _).trans (execTrow_of_ge (by omega) s).symm

end Sys2Proof.Machine
end

