-- ==== Sys2Proof/Tests/Slice0.lean ====
section
/-! SUPPORT. Tests on small states, with results taken from spec/95_test_vectors.md or computed by hand from the rules;
and for each statement with hypotheses a concrete case that meets them. -/

namespace Sys2Proof.Tests

open Sys2Proof Sys2Proof.Machine

/-! ## What is not well formed is refused (rules R44, R47, R48) -/

theorem test_vrd_address_too_low : (AsmLine.vrd (-32769)).wellFormed = false := by decide
theorem test_vwr_address_too_high : (AsmLine.vwr 65536 0).wellFormed = false := by decide
theorem test_tpx_tile_too_high : (AsmLine.tpx 1024 0 0).wellFormed = false := by decide
theorem test_tpx_row_too_high : (AsmLine.tpx 0 8 0).wellFormed = false := by decide
theorem test_tpx_column_negative : (AsmLine.tpx 0 0 (-1)).wellFormed = false := by decide
theorem test_tpxAt_too_high : (AsmLine.tpxAt 65536).wellFormed = false := by decide
theorem test_trow_tile_too_high : (AsmLine.trow 8192 0).wellFormed = false := by decide
theorem test_trow_row_negative : (AsmLine.trow 0 (-1)).wellFormed = false := by decide
theorem test_trowAt_negative : (AsmLine.trowAt (-1)).wellFormed = false := by decide
theorem test_vwp_second_address : (AsmLine.vwp 65535 0 0).wellFormed = false := by decide
theorem test_rsv_not_canonical : canonicalWord 0x01000000 = false := by decide
theorem test_vrd_data_not_canonical : canonicalWord 0x00000001 = false := by decide
theorem test_vwr_data_canonical : canonicalWord 0x400000FF = true := by decide
theorem test_assemble_refuses : assembleLine (.tpx 0 8 0) = none := by decide

/-! ## Words written out from the encoding (rule R40; V5, V6, P1) -/

/-- 01 000000 0000000000000001 01010100 -/
theorem test_decode_vwr : decode 0b01000000000000000000000101010100 = .vwr 1 0x54 := by decide
/-- 00 000000 0001111111111111 00000000 -/
theorem test_decode_vrd : decode 0b00000000000111111111111100000000 = .vrd 0x1FFF := by decide
/-- 10 000000 0000010010010101 00000000: TPX 18,2,5 -/
theorem test_decode_tpx : decode 0b10000000000001001001010100000000 = .tpx 0x0495 := by decide
/-- 11 000000 0000000010010010 00000000: TROW 18,2 -/
theorem test_decode_trow : decode 0b11000000000000001001001000000000 = .trow 0x0092 := by decide
theorem test_decode_ignores_rsv_and_data : decode 0xFF0000FF = .trow 0 := by decide
theorem test_decode_all_zero : decode 0x00000000 = .vrd 0 := by decide
theorem test_encode_vwr : encode (.vwr 0x0125 0x7E) = 0x4001257E := by decide
theorem test_decodeTableWord_short : decodeTableWord 8 0x54 = some (.vrd 0) := by decide
theorem test_decodeTableWord_long : decodeTableWord 40 0 = none := by decide
theorem test_assemble_tpx : assembleLine (.tpx 18 2 5) = some [commandInput 0x80049500] := by decide
theorem test_assemble_negative : assembleLine (.vrd (-1)) = some [commandInput 0x00FFFF00] := by decide
theorem test_assemble_vwp :
    assembleLine (.vwp 0x0020 0x7C 0x17C) = some [commandInput 0x4000207C, commandInput 0x4000217C] := by decide

/-! ## One command, one step -/

/-- The state an outcome holds. -/
def stateOf : Host.Outcome State Fault Refusal → Option State
  | .next s => some s
  | .fault _ => none
  | .refused _ => none

/-- The response word an outcome holds. -/
def wordOf (o : Host.Outcome State Fault Refusal) : Option Word := (stateOf o).bind State.rspWord

/-- Tile 0 row 0 after the first write of E1: 0 2 0 2 0 2 0 0 (P1 step 5). -/
def halfPair : State where
  vram := [(0, 0x54)]
  tiles := [(1, .two), (3, .two), (5, .two)]
  rsp := none
  inputs := []

/-- Tile 0 row 0 after both writes of E1: 0 3 1 2 0 3 1 1. -/
def wholePair : State where
  vram := [(0, 0x54), (1, 0x67)]
  tiles := [(1, .three), (2, .one), (3, .two), (5, .three), (6, .one), (7, .one)]
  rsp := none
  inputs := []

/-- E1, first write. -/
theorem test_vwr_first_plane :
    (stateOf (exec (.vwr 0 0x54) State.reset)).map (fun s => (s.vram, s.tiles)) =
      some (halfPair.vram, halfPair.tiles) := by decide
/-- E1, second write: the columns 2, 3, 6 and 7 tell the source's numbering from the opposite one. -/
theorem test_vwr_second_plane :
    (stateOf (exec (.vwr 1 0x67) halfPair)).map (fun s => (s.vram, s.tiles)) =
      some (wholePair.vram, wholePair.tiles) := by decide
/-- P3 step 7: the first tile-map byte is stored and decoded into nothing. -/
theorem test_vwr_tile_map :
    (stateOf (exec (.vwr 0x1800 0xFF) State.reset)).map (fun s => (s.vram, s.tiles)) =
      some ([(0x1800, 0xFF)], []) := by decide
/-- P3 step 1: the last tile-data byte, row 1 0 0 0 0 0 0 1 of tile 383. -/
theorem test_vwr_last_row :
    (stateOf (exec (.vwr 0x17FF 0x81) State.reset)).map State.tiles =
      some [(383 * 64 + 56, .one), (383 * 64 + 63, .one)] := by decide
/-- V1. -/
theorem test_vwr_out_of_range :
    (stateOf (exec (.vwr 0x2000 0xCD) State.reset)).map (fun s => (s.vram, s.rsp)) = some ([], some .outOfRange) := by
  decide
/-- P2, end state: writing the reset byte back lists no cell. -/
theorem test_vwr_zero_is_not_listed :
    (stateOf (exec (.vwr 0 0x00) halfPair)).map (fun s => (s.vram, s.tiles)) = some ([], []) := by decide
/-- P1 step 4. -/
theorem test_vrd : wordOf (exec (.vrd 0) halfPair) = some 0x00000054 := by decide
/-- V1. -/
theorem test_vrd_out_of_range : wordOf (exec (.vrd 0x2000) halfPair) = some 0x80000000 := by decide
/-- P1 steps 11 and 12. -/
theorem test_tpx : wordOf (exec (.tpx 1) wholePair) = some 3 ∧ wordOf (exec (.tpx 2) wholePair) = some 1 := by decide
/-- V5. -/
theorem test_tpx_bounds :
    wordOf (exec (.tpx 0x5FFF) wholePair) = some 0 ∧ wordOf (exec (.tpx 0x6000) wholePair) = some 0x80000000 := by
  decide
/-- P1 steps 5 and 9. -/
theorem test_trow :
    wordOf (exec (.trow 0) halfPair) = some 0x2220 ∧ wordOf (exec (.trow 0) wholePair) = some 0x3635 := by decide
/-- V5. -/
theorem test_trow_bounds :
    wordOf (exec (.trow 0x0BFF) wholePair) = some 0 ∧ wordOf (exec (.trow 0x0C00) wholePair) = some 0x80000000 := by
  decide
/-- V4, rows 17 and 18. -/
theorem test_splitter :
    rowWord (splitRow 0x81 0x42) = 0x9006 ∧ rowWord (splitRow 0xA5 0xC3) = 0xD827 := by decide
/-- V2. -/
theorem test_masking :
    maskByte 0x1FF = 0xFF ∧ maskByte 256 = 0x00 ∧ maskByte (-1) = 0xFF ∧ maskByte (-128) = 0x80 := by decide
/-- V3, the row of 0x0125. -/
theorem test_addressing :
    pairBase 0x0125 = 0x0124 ∧ tileIndex 0x0125 = 18 ∧ rowIndex 0x0125 = 2 ∧ triggersUpdate 0x1800 = false := by decide

/-- V6: the word 0x3F0001AA reads byte 1. -/
theorem test_step_command : wordOf (step (wholePair.withFetchWord 32 0x3F0001AA)) = some 0x67 := by decide
/-- P5 step 4: the arrays are cleared, and what the master drives next stays. -/
theorem test_step_reset :
    stateOf (step { wholePair with inputs := [resetInput, commandInput 0x00000000] }) =
      some { State.reset with inputs := [commandInput 0x00000000] } := by decide
/-- V1 and P1 step 9: `rsp_valid` and `rsp_word` after a command that failed and after a TROW. -/
theorem test_step_response :
    (stateOf (step (wholePair.drive (commandInput 0x00200000)))).map (fun t => (t.rspValid, t.rspWord)) =
        some (true, some 0x80000000) ∧
      (stateOf (step (wholePair.drive (commandInput 0xC0000000)))).map (fun t => (t.rspValid, t.rspWord)) =
        some (true, some 0x00003635) := by decide
theorem test_step_idle : stateOf (step wholePair) = some wholePair := by decide
theorem test_step_refuses_reset_during_command :
    stateOf (step { wholePair with inputs := [{ rst := true, reqValid := true, reqCmd := 0 }] }) = none := by decide
/-- The first step after reset runs the word it is given. -/
theorem test_step_from_reset : wordOf (step (State.reset.withFetchWord 32 0xC00C0000)) = some 0x80000000 := by decide

/-! ## Witnesses: the hypotheses of the statements can be met -/

/-- One byte stored, one pixel that is not `zero`. -/
def sample : State where
  vram := [(0, 0x80)]
  tiles := [(0, .two)]
  rsp := none
  inputs := []

theorem witness_canonical : Canonical sample ∧ Canonical halfPair := by decide

theorem witness_coherent : Coherent sample := by
  intro t _ r _ c hc
  have hodd : ¬0 = 16 * t + 2 * r + 1 := by omega
  simp only [State.pixel, State.readVram, decodeAll, sample, cellsGet, pixelAddr, if_neg hodd]
  by_cases hrow : 0 = 16 * t + 2 * r
  · obtain ⟨rfl, rfl⟩ : t = 0 ∧ r = 0 := by omega
    interval_cases c <;> decide
  · rw [if_neg hrow, if_neg (by omega)]
    simp [pv]

/-- `StateInv` of CacheIsAFunctionOfTheTileData, TileReadsDoNotSeeTheTileMap, EveryStepKeepsTheInvariant,
ReadsReturnTheMostRecentWrites. -/
theorem witness_invariant : StateInv sample := ⟨witness_canonical.1, witness_coherent⟩

/-- EveryStepKeepsTheInvariant: a state with the invariant whose step answers a next state. -/
theorem witness_step_from_invariant : StateInv sample ∧ (stateOf (step sample)).isSome := ⟨witness_invariant, by decide⟩

/-- CommandsAreOneWordLong, both clauses at their boundary. -/
theorem witness_word_lengths : (32 ≤ 32 ∧ 0xFFFFFFFF < 2 ^ 32) ∧ 32 < 33 := by decide

/-- IgnoredBitsChangeNothing: two different words that agree on the fields that count. -/
theorem witness_ignored_bits :
    opField 0x3F0001AA = opField 0x00000100 ∧ addrField 0x3F0001AA = addrField 0x00000100 ∧
      (0x3F0001AA : Word) ≠ 0x00000100 := by decide

/-- FieldsCarryIntegerOperands, both clauses at their boundaries. -/
theorem witness_integer_addresses :
    ((-0x8000 : Int) ≤ -1 ∧ (-1 : Int) ≤ 0xFFFF ∧ fieldOf (-1) = 0xFFFF) ∧ fieldOf (-0x8000) = 0x8000 ∧
      fieldOf 0 = 0 ∧ fieldOf 0xFFFF = 0xFFFF := by decide

/-- AssemblerPresentsTheLinesCommands, AssembledWordsCarryTheLinesOperands: every form of line accepted at a boundary of
its range, with the word computed by hand from rules R40, R47 and R48; and lines refused one past it. -/
theorem witness_lines :
    assembleLine (.vrd (-32768)) = some [commandInput 0x00800000] ∧
      assembleLine (.vwr 65535 511) = some [commandInput 0x40FFFFFF] ∧
      assembleLine (.tpx 1023 7 7) = some [commandInput 0x80FFFF00] ∧
      assembleLine (.tpxAt 65535) = some [commandInput 0x80FFFF00] ∧
      assembleLine (.trow 8191 7) = some [commandInput 0xC0FFFF00] ∧
      assembleLine (.trowAt 1) = some [commandInput 0xC0000100] ∧
      assembleLine (.vwp 65534 0 (-1)) = some [commandInput 0x40FFFE00, commandInput 0x40FFFFFF] ∧
      (AsmLine.trow 8192 7).wellFormed = false ∧ (AsmLine.vwp (-32769) 0 0).wellFormed = false := by decide

/-- ListingsAreAssembledLineByLine: a listing with a RESET and a VWP line, one with a refused line, and a
state that holds the inputs of a listing (a RESET line) and one more. -/
theorem witness_listing :
    assemble [.reset, .vwp 0 0x54 0x67, .trow 0 0] =
        some [resetInput, commandInput 0x40000054, commandInput 0x40000167, commandInput 0xC0000000] ∧
      assemble [.reset, .tpx 0 8 0] = none ∧
      { State.reset with inputs := [resetInput, idleInput] }.inputs = [resetInput] ++ [idleInput] := by decide

/-- ResponseWordFormat: each command answers OK somewhere. -/
theorem witness_ok_responses :
    (stateOf (exec (.vrd 0x1FFF) sample)).map State.rsp = some (some (.ok 0)) ∧
      (stateOf (exec (.vwr 0x1FFF 1) sample)).map State.rsp = some (some (.ok 0)) ∧
      (stateOf (exec (.tpx 0) sample)).map State.rsp = some (some (.ok 2)) ∧
      (stateOf (exec (.trow 0) sample)).map State.rsp = some (some (.ok 0x8000)) := by decide

/-- FlatTileAddressesRoundTrip, PairBaseClearsTheLowBit, TileAndRowSelection: fields at the ends of the ranges. -/
theorem witness_ranges :
    (0x5FFF : AddrField).toNat < 0x6000 ∧ (0x0BFF : AddrField).toNat < 0x0C00 ∧ (0x17FF : AddrField).toNat < 0x1800 ∧
      bitOf (0x17FF : AddrField) 0 = true ∧ bitOf (0x17FE : AddrField) 0 = false := by decide

/-- BoundsCheckOfTheStore, the clauses in range and out of range, and the images of negative addresses. -/
theorem witness_bounds :
    inRange 0x1FFF = true ∧ inRange 0x2000 = false ∧ inRange (-1) = false ∧ fieldOf (-0x8000) = 0x8000 := by decide

/-- UpdateTriggersBelowTileDataEnd, UpdateRewritesThePairsRow: addresses on both sides of 0x1800. -/
theorem witness_trigger : triggersUpdate 0x17FF = true ∧ triggersUpdate 0x1800 = false ∧ (0x1FFF : Nat) < 0x2000 := by
  decide

/-- WriteBackStoresOneRow: a row and another one of the same canonical state. -/
theorem witness_write_back : Canonical sample ∧ (383 : Nat) < 384 ∧ (7 : Nat) < 8 ∧ ((383, 6) : Nat × Nat) ≠ (383, 7) :=
  ⟨witness_canonical.1, by decide⟩

/-- VrdReturnsTheStoredByte, VwrStoresAndUpdatesOneRow: both clauses at the boundary of the store. -/
theorem witness_store_addresses :
    Canonical sample ∧ (0x1FFF : AddrField).toNat < 0x2000 ∧ 0x2000 ≤ (0x2000 : AddrField).toNat :=
  ⟨witness_canonical.1, by decide⟩

/-- TpxReturnsThePixelCode, TrowReturnsTheRowWord: both clauses at their boundaries, the second with a coherent cache. -/
theorem witness_tile_addresses :
    Coherent sample ∧ (0x5FFF : AddrField).toNat < 0x6000 ∧ 0x6000 ≤ (0x6000 : AddrField).toNat ∧
      (0x0BFF : AddrField).toNat < 0x0C00 ∧ 0x0C00 ≤ (0x0C00 : AddrField).toNat :=
  ⟨witness_coherent, by decide⟩

/-- ReadCommandsFrame, ReadsArePureAndRepeatable: a read that answers a next state (a command that fails:
witness_failing_command). -/
theorem witness_read : (∀ a v, Instr.tpx 0 ≠ .vwr a v) ∧ ∃ t, exec (.tpx 0) sample = .next t :=
  ⟨fun _ _ h => (by cases h), _, execTpx_of_lt (p := 0) (by decide) sample⟩

/-- ReadsArePureAndRepeatable, the clause over runs: a VWR out of range (address 0x2000), a read and an idle step
run to their end. -/
theorem witness_reads_between :
    (∀ p ∈ [commandInput 0x40200055, commandInput 0xC0000000, idleInput], p.rst = false) ∧
      decode 0x40200055 = .vwr 0x2000 0x55 ∧ decode 0xC0000000 = .trow 0 ∧
      (stateOf (runSteps 3 { halfPair with
        inputs := [commandInput 0x40200055, commandInput 0xC0000000, idleInput] })).map State.vram =
        some halfPair.vram := by decide

/-- VwrFrame, VwrIsLocalToOneRow, VwrIsIdempotent, PartialPairRows, RowIsAFunctionOfThePair: a write to each byte of a
pair, one after the other, in tile data. -/
theorem witness_writes :
    Canonical halfPair ∧ (0x0000 : AddrField).toNat < 0x1800 ∧ (0 : AddrField).toNat = pairBase (0 : AddrField).toNat ∧
      (1 : AddrField).toNat = (0 : AddrField).toNat + 1 ∧
      ∃ t u, exec (.vwr 0 0x80) halfPair = .next t ∧ exec (.vwr 1 0x01) t = .next u :=
  ⟨witness_canonical.2, by decide, by decide, by decide, _, _, execVwr_of_lt (a := 0) (by decide) _ _,
    execVwr_of_lt (a := 1) (by decide) _ _⟩

/-- PartialPairRows: the other byte of the pair is 0x00. -/
theorem witness_partial_pair : sample.readVram (0 + 1) = 0 ∧ State.reset.readVram (1 - 1) = 0 := by decide

/-- TrowSeesTheIntermediateRow, even byte first and odd byte first, at the addresses of the last row of the cache. -/
theorem witness_intermediate_writes :
    Canonical sample ∧
      (∃ t u, exec (.vwr 0x17FE 0x54) sample = .next t ∧ exec (.vwr 0x17FF 0x67) t = .next u) ∧
      ∃ t u, exec (.vwr 0x17FF 0x67) sample = .next t ∧ exec (.vwr 0x17FE 0x54) t = .next u :=
  have even := execVwr_of_lt (a := 0x17FE) (by decide) 0x54
  have odd := execVwr_of_lt (a := 0x17FF) (by decide) 0x67
  ⟨witness_canonical.1, ⟨_, _, even _, odd _⟩, _, _, odd _, even _⟩

/-- TrowSeesTheIntermediateRow: the operands of those writes and of the TROW. -/
theorem witness_intermediate_row :
    (0x17FE : AddrField).toNat < 0x1800 ∧ (0x17FE : AddrField).toNat % 2 = 0 ∧
      (0x17FF : AddrField).toNat = (0x17FE : AddrField).toNat + 1 ∧
      (0x0BFF : AddrField).toNat = (0x17FE : AddrField).toNat / 2 := by decide

/-- TileMapWritesLeaveTheCache: its two clauses at their boundaries. -/
theorem witness_tile_map :
    Canonical sample ∧ 0x1800 ≤ (0x1800 : AddrField).toNat ∧ (0x1FFF : AddrField).toNat ≤ 0x1FFF ∧
      0x2000 ≤ (0x2000 : AddrField).toNat :=
  ⟨witness_canonical.1, by decide⟩

/-- FailingCommandsChangeNothing, ErrorsLeaveNoTrace: a command that fails. -/
theorem witness_failing_command : ∃ t, exec (.trow 0x0C00) sample = .next t ∧ t.rsp = some .outOfRange :=
  ⟨_, execTrow_of_ge (q := 0x0C00) (by decide) sample, rfl⟩

/-- GlobalAddressesFailUntranslated: the two ends of the window. -/
theorem witness_window :
    (0x8000 : AddrField).toNat - 0x8000 = (0 : AddrField).toNat ∧ (0x9FFF : AddrField).toNat ≤ 0x9FFF ∧
      (0x9FFF : AddrField).toNat - 0x8000 = (0x1FFF : AddrField).toNat := by decide

/-- OutOfRangeCauses, its clause about a reset: a state with no `OutOfRange` at the port. -/
theorem witness_no_error_at_port : wholePair.rsp ≠ some .outOfRange := by decide

/-- ResetInputEstablishesTheResetState, OnlyResetDuringACommandIsRefused, IdleChangesNothing,
StepRunsTheDecodedCommand, ResponseWordStandsAtThePort: the four pairs of input signals. -/
theorem witness_ports :
    ((sample.drive resetInput).port.rst = true ∧ (sample.drive resetInput).port.reqValid = false) ∧
      (sample.port.rst = false ∧ sample.port.reqValid = false) ∧
      ((sample.drive (commandInput 0)).port.rst = false ∧ (sample.drive (commandInput 0)).port.reqValid = true) ∧
      (sample.drive { rst := true, reqValid := true, reqCmd := 0 }).port.rst = true := by decide

/-- OnlyVwrAndResetWrite: a step that changes a byte and a pixel, without a reset. -/
theorem witness_step_writes :
    (stateOf (step (State.reset.drive (commandInput 0x40000080)))).map
      (fun t => (t.readVram 0, t.pixel 0 0 0)) = some (0x80, .two) := by decide

/-- CacheIsCoherentInEveryReachableState, ReadsReturnTheMostRecentWrites, RunsFailExactlyOnBadOperands: legal inputs that
run to their end, with a reset and an idle step among them. -/
theorem witness_inputs :
    (∀ p ∈ [commandInput 0x40000054, idleInput, resetInput], p.legal = true) ∧
      (stateOf (runSteps 3 { State.reset with inputs := [commandInput 0x40000054, idleInput, resetInput] })) =
        some State.reset := by decide

/-- CacheIsAFunctionOfTheTileData, TileReadsDoNotSeeTheTileMap: two states that differ in a tile-map byte only. -/
theorem witness_tile_map_differs :
    ∃ s t : State, StateInv s ∧ StateInv t ∧ s.vram ≠ t.vram ∧ ∀ a < 0x1800, s.readVram a = t.readVram a := by
  obtain ⟨u, hu⟩ : ∃ u, exec (.vwr 0x1800 0xFF) sample = .next u := ⟨_, execVwr_of_lt (a := 0x1800) (by decide) _ _⟩
  obtain ⟨hc, -, -, hb, hp⟩ := vwr_next witness_canonical.1 (by decide) hu
  have hne : ∀ a, a < 0x1800 → u.readVram a = sample.readVram a := fun a ha => by
    rw [hb, if_neg (by simp; omega)]
  refine ⟨u, sample, ⟨hc, fun t ht r hr c hcc => ?_⟩, witness_invariant, fun h => ?_, hne⟩
  · rw [hp _ _ _ hr hcc, if_neg (by simp), witness_coherent t ht r hr c hcc, decodeAll, decodeAll, hne _ (by omega),
      hne _ (by omega)]
  · have := (hb 0x1800).symm.trans (readVram_congr h 0x1800)
    exact absurd this (by decide)

/-- ArraysAloneDecideEveryCommand: two states with the same arrays and different ports. -/
theorem witness_same_arrays : SameArrays sample (sample.drive (commandInput 0)) ∧
    sample ≠ sample.drive (commandInput 0) := ⟨⟨rfl, rfl⟩, by decide⟩

end Sys2Proof.Tests
end

section
/-! PROOFS. The statements about the state (rules R18, R19): what the arrays hold after reset, and which step may write
which cell. The latter rests on one inversion: a command that changes an array is a VWR in range. -/

namespace Sys2Proof.Machine

variable {s t : State}

/-! ## States with the same arrays read alike -/

theorem SameArrays.readVram_eq (h : SameArrays t s) (b : Nat) : t.readVram b = s.readVram b := readVram_congr h.1 b

theorem SameArrays.pixel_eq (h : SameArrays t s) (n r c : Nat) : t.pixel n r c = s.pixel n r c := pixel_congr h.2 n r c

/-! ## Who may write -/

/-- A command that answers `t` keeps both arrays, or it is a VWR in range. -/
theorem exec_next_cases {i : Instr} (h : exec i s = .next t) :
    SameArrays t s ∨ ∃ a v, i = .vwr a v ∧ a.toNat < 0x2000 := by
  obtain ⟨t', h', -, -, hcases⟩ := exec_cases i s
  obtain rfl : t = t' := by rw [h] at h'; injection h'
  exact hcases.imp id fun ⟨a, v, hi, ha, _⟩ => ⟨a, v, hi, ha⟩

/-- Only a VWR can change an array (rule R18). -/
theorem exec_sameArrays_of_not_vwr {i : Instr} (hi : ∀ a v, i ≠ .vwr a v) (h : exec i s = .next t) :
    SameArrays t s := by
  obtain hsame | ⟨a, v, rfl, -⟩ := exec_next_cases h
  · exact hsame
  · exact absurd rfl (hi a v)

/-- A step without a reset keeps both arrays, or it accepts and runs a VWR in range. -/
theorem step_next_cases (h : step s = .next t) (hrst : s.port.rst = false) :
    SameArrays t s ∨ ∃ a v, s.port.reqValid = true ∧ decode s.port.reqCmd = .vwr a v ∧ a.toNat < 0x2000 ∧
      exec (.vwr a v) s.consume = .next t := by
  obtain ⟨hreset, -⟩ | ⟨-, hvalid, hexec⟩ | ⟨-, -, rfl⟩ := step_cases h
  · simp [hrst] at hreset
  · obtain hsame | ⟨a, v, hi, ha⟩ := exec_next_cases hexec
    · exact .inl hsame
    · exact .inr ⟨a, v, hvalid, hi, ha, hi ▸ hexec⟩
  · exact .inl ⟨rfl, rfl⟩

/-- A step with `rst` leaves the arrays of the reset state (rule R77). -/
theorem step_sameArrays_reset (h : step s = .next t) (hrst : s.port.rst = true) : SameArrays t State.reset := by
  obtain ⟨-, -, rfl⟩ | ⟨hcommand, -⟩ | ⟨hidle, -⟩ := step_cases h
  · exact ⟨rfl, rfl⟩
  · simp [hrst] at hcommand
  · simp [hrst] at hidle

/-- The only byte that a VWR in range changes is the one it addresses, and it then holds the value written. -/
theorem vwr_changed_byte {a : AddrField} {v : Byte} (hs : Canonical s) (ha : a.toNat < 0x2000)
    (h : exec (.vwr a v) s = .next t) {b : Nat} (hne : t.readVram b ≠ s.readVram b) :
    a.toNat = b ∧ t.readVram b = v := by
  obtain ⟨-, -, -, hbyte, -⟩ := vwr_next hs ha h
  by_cases hb : b = a.toNat
  · exact ⟨hb.symm, by simp [hbyte, hb]⟩
  · exact absurd (by simp [hbyte, hb]) hne

/-- The only pixels that a VWR in range changes are those of the row of its pair, and they then hold the split of the
pair's bytes. -/
theorem vwr_changed_pixel {a : AddrField} {v : Byte} (hs : Canonical s) (ha : a.toNat < 0x2000)
    (h : exec (.vwr a v) s = .next t) {n r c : Nat} (hr : r < 8) (hc : c < 8) (hne : t.pixel n r c ≠ s.pixel n r c) :
    pairBase a.toNat = 16 * n + 2 * r ∧
      t.pixel n r c = splitRow (t.readVram (16 * n + 2 * r)) (t.readVram (16 * n + 2 * r + 1)) c := by
  obtain ⟨-, -, -, -, hpixel⟩ := vwr_next hs ha h
  have hcell := hpixel n r c hr hc
  split at hcell
  case isTrue hrow =>
    obtain ⟨-, rfl, rfl⟩ := hrow
    rw [pairBase_eq]
    exact ⟨rfl, hcell⟩
  case isFalse => exact absurd hcell hne

end Sys2Proof.Machine
end

section
open Sys2Proof Sys2Proof.Machine

/-- Settles O38: both arrays of the reset state are the empty list, whose every cell reads as blank. -/
theorem resetStateIsAllZero : Obligations.ResetStateIsAllZero :=
  ⟨fun a _ => readVram_of_nil reset_vram a, fun t _ r _ c _ => pixel_of_nil reset_tiles t r c⟩

/-- Settles O44: a step that changes a cell without a reset runs a VWR in range, and `vwr_changed_byte` and
`vwr_changed_pixel` say which cells that VWR can change. -/
theorem onlyVwrAndResetWrite : Obligations.OnlyVwrAndResetWrite := by
  refine ⟨fun s t hs h hrst => ?_, fun i s t hi h => exec_sameArrays_of_not_vwr hi h,
    fun s t h hrst => step_sameArrays_reset h hrst⟩
  obtain hsame | ⟨a, v, hvalid, hdecode, ha, hexec⟩ := step_next_cases h hrst
  · exact ⟨fun b _ hne => absurd (hsame.readVram_eq b) hne,
      fun n _ r _ c _ hne => absurd (hsame.pixel_eq n r c) hne⟩
  · refine ⟨fun b _ hne => ?_, fun n _ r hr c hc hne => ?_⟩
    · obtain ⟨hb, hv⟩ := vwr_changed_byte (s := s.consume) hs ha hexec hne
      exact ⟨hvalid, a, v, hdecode, hb, hv⟩
    · obtain ⟨hpair, hp⟩ := vwr_changed_pixel (s := s.consume) hs ha hexec hr hc hne
      exact ⟨hvalid, a, v, hdecode, hpair, hp⟩

end

section
/-! PROOFS. The statements about memory (rules R23, R28, R31, R35): flat addresses, reads without side effect, the
invariant over runs, and the replay of the writes. A command is a function of the arrays, an input that writes nothing
keeps them, and every step keeps the invariant; the runs are inductions over these. -/

namespace Sys2Proof.Machine

variable {s s' t t' : State} {i : Instr} {p : PortInput}

/-! ## Slices and rows as numbers -/

/-- `v[hi:lo]` as a number: the value divided by `2^lo`, modulo the width of the slice (rule R8). -/
theorem slice_toNat {w : Nat} (hi lo : Nat) (v : BitVec w) :
    (slice hi lo v).toNat = v.toNat / 2 ^ lo % 2 ^ (hi - lo + 1) := by
  rw [slice, BitVec.extractLsb_toNat, Nat.shiftRight_eq_div_pow]

/-- The two bytes of row `r` of tile `n` are the addresses whose update writes that row (rule R54). -/
theorem selects_row {n r a : Nat} (hr : r < 8) (ha : a = 16 * n + 2 * r ∨ a = 16 * n + 2 * r + 1) :
    n = tileIndex a ∧ r = rowIndex a := by
  unfold tileIndex rowIndex
  omega

/-- The reference decode splits the two bytes of each row, as the update does (rules R34, R56). -/
theorem decodeAll_eq_splitRow (V : Nat → Byte) (n r c : Nat) :
    decodeAll V n r c = splitRow (V (16 * n + 2 * r)) (V (16 * n + 2 * r + 1)) c := rfl

/-! ## A command is a function of the arrays -/

theorem exec_next_unique (h : exec i s = .next t) (h' : exec i s = .next t') : t = t' := by
  rw [h] at h'
  injection h'

theorem SameArrays.trans (h : SameArrays s t) (h' : SameArrays t t') : SameArrays s t' :=
  ⟨h.1.trans h'.1, h.2.trans h'.2⟩

/-- The response and the arrays that a command leaves depend on the arrays alone (rule R17). -/
theorem SameArrays.exec_next (h : SameArrays s s') (hs : exec i s = .next t) (hs' : exec i s' = .next t') :
    SameArrays t t' ∧ t.rsp = t'.rsp := by
  suffices ∃ u u', exec i s = .next u ∧ exec i s' = .next u' ∧ SameArrays u u' ∧ u.rsp = u'.rsp by
    obtain ⟨u, u', hu, hu', hsame⟩ := this
    obtain rfl := exec_next_unique hs hu
    obtain rfl := exec_next_unique hs' hu'
    exact hsame
  cases i with
  | vrd a =>
    by_cases ha : a.toNat < 0x2000
    · exact ⟨_, _, execVrd_of_lt ha s, execVrd_of_lt ha s', h, by simp [h.readVram_eq]⟩
    · exact ⟨_, _, execVrd_of_ge (by omega) s, execVrd_of_ge (by omega) s', h, rfl⟩
  | vwr a v =>
    by_cases ha : a.toNat < 0x2000
    · have hstore : (s.writeVram a.toNat v).vram = (s'.writeVram a.toNat v).vram := by simp [State.writeVram, h.1]
      exact ⟨_, _, execVwr_of_lt ha v s, execVwr_of_lt ha v s',
        ⟨by simpa using hstore, tupd_tiles_congr hstore h.2 _⟩, rfl⟩
    · exact ⟨_, _, execVwr_of_ge (by omega) v s, execVwr_of_ge (by omega) v s', h, rfl⟩
  | tpx p =>
    by_cases hp : p.toNat < 0x6000
    · exact ⟨_, _, execTpx_of_lt hp s, execTpx_of_lt hp s', h, by simp [h.pixel_eq]⟩
    · exact ⟨_, _, execTpx_of_ge (by omega) s, execTpx_of_ge (by omega) s', h, rfl⟩
  | trow q =>
    by_cases hq : q.toNat < 0x0C00
    · exact ⟨_, _, execTrow_of_lt hq s, execTrow_of_lt hq s', h, by simp [funext (h.pixel_eq _ _)]⟩
    · exact ⟨_, _, execTrow_of_ge (by omega) s, execTrow_of_ge (by omega) s', h, rfl⟩

/-- No command takes anything from the input ports. -/
theorem exec_inputs (h : exec i s = .next t) : t.inputs = s.inputs := by
  obtain ⟨t', h', hinputs, -⟩ := exec_cases i s
  obtain rfl := exec_next_unique h h'
  exact hinputs

/-- A command answers alike from states that differ at most in the response port. -/
theorem SameArrays.exec_eq (h : SameArrays s s') (hinputs : s.inputs = s'.inputs) : exec i s = exec i s' := by
  have hs : s = { s' with rsp := s.rsp } := state_ext h.1 h.2 rfl hinputs
  calc exec i s = exec i { s' with rsp := s.rsp } := congrArg (exec i) hs
    _ = exec i s' := exec_setRsp i s' s.rsp

/-! ## Reads, failing commands and repeated writes -/

/-- A command that fails changes no array (rule R68). -/
theorem exec_sameArrays_of_outOfRange (h : exec i s = .next t) (hrsp : t.rsp = some .outOfRange) : SameArrays t s := by
  obtain ⟨t', h', -, -, hsame | ⟨a, v, -, -, hwrite⟩⟩ := exec_cases i s
  all_goals obtain rfl := exec_next_unique h h'
  · exact hsame
  · simp [hwrite] at hrsp

/-- After a read, or after a command that failed, every command answers as it would have before (rules R28, R71). -/
theorem exec_after_read_or_failure {j : Instr} (h : exec j s = .next t)
    (hj : (∀ a v, j ≠ .vwr a v) ∨ t.rsp = some .outOfRange) : exec i t = exec i s := by
  have hsame : SameArrays t s :=
    hj.elim (exec_sameArrays_of_not_vwr · h) (exec_sameArrays_of_outOfRange h)
  exact hsame.exec_eq (exec_inputs h)

/-- A VWR in range, repeated, finds its byte and its row as it is about to write them (rule R28). -/
theorem vwr_repeat {a : AddrField} {v : Byte} (hs : Canonical s) (ha : a.toNat < 0x2000)
    (h : exec (.vwr a v) s = .next t) : exec (.vwr a v) t = .next t := by
  obtain ⟨u, hu, -⟩ := exec_cases (.vwr a v) t
  obtain ⟨ht, hrsp, -, hbyte, hpixel⟩ := vwr_next hs ha h
  obtain ⟨hcanonical, hrsp', hinputs', hbyte', hpixel'⟩ := vwr_next ht ha hu
  have hread : ∀ b, u.readVram b = t.readVram b := fun b => by
    by_cases hb : b = a.toNat <;> simp [hbyte', hbyte, hb]
  have hcell : ∀ n < 384, ∀ r < 8, ∀ c < 8, u.pixel n r c = t.pixel n r c := fun n _ r hr c hc => by
    rw [hpixel' n r c hr hc, hread, hread]
    split
    case isTrue hrow => rw [hpixel n r c hr hc, if_pos hrow]
    case isFalse => rfl
  rw [hu, state_ext (vram_ext hcanonical.1 ht.1 fun b _ => hread b) (tiles_ext hcanonical.2 ht.2 hcell)
    (hrsp'.trans hrsp.symm) hinputs']

/-! ## What an input asks for -/

/-- The input writes nothing: no reset and no VWR in range. -/
def PortInput.Quiet (p : PortInput) : Prop :=
  p.rst = false ∧ (p.reqValid = true → ∀ a v, decode p.reqCmd = .vwr a v → 0x2000 ≤ a.toNat)

/-- An input is a reset, writes nothing, or is a VWR in range. -/
theorem PortInput.cases (p : PortInput) :
    p.rst = true ∨ p.Quiet ∨
      (p.rst = false ∧ p.reqValid = true ∧ ∃ a v, decode p.reqCmd = .vwr a v ∧ a.toNat < 0x2000) := by
  by_cases hrst : p.rst = true
  · exact .inl hrst
  · rw [Bool.not_eq_true] at hrst
    by_cases hwrite : p.reqValid = true ∧ ∃ a v, decode p.reqCmd = .vwr a v ∧ a.toNat < 0x2000
    · exact .inr (.inr ⟨hrst, hwrite⟩)
    · exact .inr (.inl ⟨hrst, fun hvalid a v hdecode =>
        Nat.not_lt.1 fun ha => hwrite ⟨hvalid, a, v, hdecode, ha⟩⟩)

theorem replayInput_of_reset (V : Nat → Byte) (h : p.rst = true) : replayInput V p = fun _ => 0x00 := by
  simp [replayInput, h]

theorem replayInput_of_vwr (V : Nat → Byte) {a : AddrField} {v : Byte} (hrst : p.rst = false)
    (hvalid : p.reqValid = true) (hdecode : decode p.reqCmd = .vwr a v) (ha : a.toNat < 0x2000) :
    replayInput V p = fun b => if b = a.toNat then v else V b := by
  simp [replayInput, hrst, hvalid, hdecode, ha]

theorem replayInput_of_quiet (V : Nat → Byte) (h : p.Quiet) : replayInput V p = V := by
  obtain ⟨hrst, hquiet⟩ := h
  cases hvalid : p.reqValid with
  | false => simp [replayInput, hrst, hvalid]
  | true =>
    cases hdecode : decode p.reqCmd with
    | vwr a v => simp [replayInput, hrst, hvalid, hdecode, Nat.not_lt.2 (hquiet hvalid a v hdecode)]
    | vrd a => simp [replayInput, hrst, hvalid, hdecode]
    | tpx p => simp [replayInput, hrst, hvalid, hdecode]
    | trow q => simp [replayInput, hrst, hvalid, hdecode]

/-! ## One step -/

theorem port_of_inputs_cons {ins : List PortInput} (h : s.inputs = p :: ins) : s.port = p := by
  simp [State.port, h]

/-- A step takes one entry off the list of inputs. -/
theorem step_inputs (h : step s = .next t) : t.inputs = s.inputs.tail := by
  obtain ⟨-, -, rfl⟩ | ⟨-, -, hexec⟩ | ⟨-, -, rfl⟩ := step_cases h
  · rfl
  · exact exec_inputs hexec
  · rfl

/-- Every legal input is answered by a next state (rules R78, R85). -/
theorem step_of_legal (h : s.port.legal = true) : ∃ t, step s = .next t := by
  cases hrst : s.port.rst <;> cases hvalid : s.port.reqValid
  · exact ⟨_, step_idle hrst hvalid⟩
  · obtain ⟨t, ht, -⟩ := exec_cases (decode s.port.reqCmd) s.consume
    exact ⟨t, (step_command hrst hvalid).trans ht⟩
  · exact ⟨_, step_reset hrst hvalid⟩
  · simp [PortInput.legal, hrst, hvalid] at h

/-- A step on an input that writes nothing keeps both arrays. -/
theorem step_sameArrays_of_quiet (h : step s = .next t) (hquiet : s.port.Quiet) : SameArrays t s := by
  obtain hsame | ⟨a, v, hvalid, hdecode, ha, -⟩ := step_next_cases h hquiet.1
  · exact hsame
  · exact absurd ha (Nat.not_lt.2 (hquiet.2 hvalid a v hdecode))

/-- One step leaves in the store what the replay of its input says (rules R19, R49, R51). -/
theorem step_readVram (hs : Canonical s) (h : step s = .next t) :
    t.readVram = replayInput s.readVram s.port := by
  obtain hrst | hquiet | ⟨hrst, hvalid, a, v, hdecode, ha⟩ := s.port.cases
  · rw [replayInput_of_reset _ hrst]
    exact funext fun b => readVram_of_nil (step_sameArrays_reset h hrst).1 b
  · rw [replayInput_of_quiet _ hquiet]
    exact funext (step_sameArrays_of_quiet h hquiet).readVram_eq
  · rw [replayInput_of_vwr _ hrst hvalid hdecode ha]
    rw [step_command hrst hvalid, hdecode] at h
    obtain ⟨-, -, -, hbyte, -⟩ := vwr_next (s := s.consume) hs ha h
    exact funext hbyte

/-! ## The invariant is kept -/

/-- The invariant speaks of the arrays alone. -/
theorem SameArrays.stateInv (h : SameArrays t s) (hs : StateInv s) : StateInv t where
  canonical := ⟨h.1 ▸ hs.canonical.1, h.2 ▸ hs.canonical.2⟩
  coherent n hn r hr c hc := by
    rw [h.pixel_eq, funext h.readVram_eq]
    exact hs.coherent n hn r hr c hc

theorem stateInv_reset : StateInv State.reset where
  canonical := ⟨⟨.nil, by simp⟩, .nil, by simp⟩
  coherent n _ r _ c _ := by
    rw [pixel_of_nil reset_tiles, decodeAll, readVram_of_nil reset_vram, readVram_of_nil reset_vram]
    simp [bitOf, pv]

/-- A VWR in range keeps the cache coherent: the row of its pair is decoded anew, and no other row reads its byte. -/
theorem vwr_coherent {a : AddrField} {v : Byte} (hs : StateInv s) (ha : a.toNat < 0x2000)
    (h : exec (.vwr a v) s = .next t) : Coherent t := by
  intro n hn r hr c hc
  obtain ⟨-, -, -, hbyte, hpixel⟩ := vwr_next hs.canonical ha h
  rw [hpixel n r c hr hc]
  split
  case isTrue hrow =>
    obtain ⟨-, rfl, rfl⟩ := hrow
    rw [decodeAll_eq_splitRow, pairBase_eq]
  case isFalse hrow =>
    have hother : ∀ b, b = 16 * n + 2 * r ∨ b = 16 * n + 2 * r + 1 → t.readVram b = s.readVram b := fun b hb => by
      rw [hbyte, if_neg]
      rintro rfl
      exact hrow ⟨by omega, selects_row hr hb⟩
    rw [hs.coherent n hn r hr c hc, decodeAll, decodeAll, hother _ (.inl rfl), hother _ (.inr rfl)]

theorem exec_stateInv (hs : StateInv s) (h : exec i s = .next t) : StateInv t := by
  obtain hsame | ⟨a, v, rfl, ha⟩ := exec_next_cases h
  · exact hsame.stateInv hs
  · exact ⟨exec_canonical hs.canonical h, vwr_coherent hs ha h⟩

/-- Every step keeps the invariant (rule R35). -/
theorem step_stateInv (hs : StateInv s) (h : step s = .next t) : StateInv t := by
  have hconsume : StateInv s.consume := SameArrays.stateInv (s := s) ⟨rfl, rfl⟩ hs
  obtain ⟨-, -, rfl⟩ | ⟨-, -, hexec⟩ | ⟨-, -, rfl⟩ := step_cases h
  · exact SameArrays.stateInv (s := State.reset) ⟨rfl, rfl⟩ stateInv_reset
  · exact exec_stateInv hconsume hexec
  · exact hconsume

/-! ## Runs -/

/-- A run of `n + 1` steps is a step and a run of `n` steps. -/
theorem runSteps_succ_eq_next {n : Nat} (h : runSteps (n + 1) s = .next t) :
    ∃ u, step s = .next u ∧ runSteps n u = .next t := by
  cases hstep : step s with
  | next u => exact ⟨u, rfl, runSteps_succ_of_next hstep n ▸ h⟩
  | fault r => exact absurd hstep (step_ne_fault r)
  | refused r => rw [runSteps_succ_of_refused hstep] at h; cases h

/-- Every run keeps the invariant. -/
theorem runSteps_stateInv {n : Nat} (hs : StateInv s) (h : runSteps n s = .next t) : StateInv t := by
  induction n generalizing s with
  | zero => rw [runSteps_zero] at h; injection h with h; exact h ▸ hs
  | succ n ih =>
    obtain ⟨u, hstep, hrun⟩ := runSteps_succ_eq_next h
    exact ih (step_stateInv hs hstep) hrun

/-- A run over inputs that write nothing keeps both arrays (rule R28). -/
theorem runSteps_sameArrays_of_quiet {ins rest : List PortInput} (hquiet : ∀ p ∈ ins, p.Quiet)
    (hinputs : s.inputs = ins ++ rest) (h : runSteps ins.length s = .next t) : SameArrays t s := by
  induction ins generalizing s with
  | nil => rw [List.length_nil, runSteps_zero] at h; injection h with h; exact h ▸ ⟨rfl, rfl⟩
  | cons p ins ih =>
    obtain ⟨u, hstep, hrun⟩ := runSteps_succ_eq_next h
    have hport : s.port = p := port_of_inputs_cons hinputs
    have htail : u.inputs = ins ++ rest := by rw [step_inputs hstep, hinputs]; rfl
    have hfirst : SameArrays u s := step_sameArrays_of_quiet hstep (hport ▸ hquiet p (by simp))
    exact (ih (fun q hq => hquiet q (by simp [hq])) htail hrun).trans hfirst

/-- A run over legal inputs ends, with the invariant, in a state whose store is the replay of the inputs (rule R31). -/
theorem runSteps_replay {ins rest : List PortInput} (hs : StateInv s) (hinputs : s.inputs = ins ++ rest)
    (hlegal : ∀ p ∈ ins, p.legal = true) :
    ∃ t, runSteps ins.length s = .next t ∧ t.inputs = rest ∧ StateInv t ∧ t.readVram = replay s.readVram ins := by
  induction ins generalizing s with
  | nil => exact ⟨s, rfl, hinputs, hs, rfl⟩
  | cons p ins ih =>
    have hport : s.port = p := port_of_inputs_cons hinputs
    obtain ⟨u, hstep⟩ := step_of_legal (s := s) (hport ▸ hlegal p (by simp))
    have htail : u.inputs = ins ++ rest := by rw [step_inputs hstep, hinputs]; rfl
    obtain ⟨t, hrun, hrest, ht, hstore⟩ := ih (step_stateInv hs hstep) htail fun q hq => hlegal q (by simp [hq])
    rw [step_readVram hs.canonical hstep, hport] at hstore
    exact ⟨t, (runSteps_succ_of_next hstep _).trans hrun, hrest, ht, hstore⟩

/-! ## What the cache reads answer in a coherent state -/

/-- TPX of a cell answers the code of the pixel that the reference decode has there. -/
theorem Coherent.exec_tpx (hs : Coherent s) {n r c : Nat} (hn : n < 384) (hr : r < 8) (hc : c < 8) {p : AddrField}
    (hp : p.toNat = n * 64 + r * 8 + c) :
    ∃ u, exec (.tpx p) s = .next u ∧ u.rsp = some (.ok ((decodeAll s.readVram n r c).code.setWidth 16)) := by
  refine ⟨_, execTpx_of_lt (by omega) s, ?_⟩
  have htile : p.toNat / 64 = n := by omega
  have hrow : p.toNat / 8 % 8 = r := by omega
  have hcol : p.toNat % 8 = c := by omega
  rw [htile, hrow, hcol, hs n hn r hr c hc, respond_rsp]

/-- TROW of a row answers the word whose columns hold the codes that the reference decode has there. -/
theorem Coherent.exec_trow (hs : Coherent s) {n r : Nat} (hn : n < 384) (hr : r < 8) {q : AddrField}
    (hq : q.toNat = n * 8 + r) :
    ∃ u d, exec (.trow q) s = .next u ∧ u.rsp = some (.ok d) ∧
      ∀ c < 8, d.extractLsb' (14 - 2 * c) 2 = (decodeAll s.readVram n r c).code := by
  refine ⟨_, _, execTrow_of_lt (by omega) s, rfl, fun c hc => ?_⟩
  have htile : q.toNat / 8 = n := by omega
  have hrow : q.toNat % 8 = r := by omega
  rw [rowWord_column _ hc, htile, hrow, hs n hn r hr c hc]

end Sys2Proof.Machine
end

section
open Sys2Proof Sys2Proof.Machine

/-- Settles O51: by induction over the inputs a run keeps the invariant and leaves the replay of its inputs in the store
(`runSteps_replay`); VRD reads that store, and TPX and TROW read the cache, which is its decode. -/
theorem readsReturnTheMostRecentWrites : Obligations.ReadsReturnTheMostRecentWrites := by
  intro ins rest s hs hinputs hlegal
  obtain ⟨t, hrun, hrest, ht, hstore⟩ := runSteps_replay hs hinputs hlegal
  rw [← hstore]
  exact ⟨t, hrun, hrest, fun a ha => ⟨_, execVrd_of_lt ha t, rfl⟩,
    fun n hn r hr c hc p hp => ht.coherent.exec_tpx hn hr hc hp,
    fun n hn r hr q hq => ht.coherent.exec_trow hn hr hq⟩

/-- Settles O12: with the slices read as numbers (`slice_toNat`) every clause is division by powers of two. -/
theorem flatTileAddressesRoundTrip : Obligations.FlatTileAddressesRoundTrip := by
  refine ⟨fun t ht r hr c hc => ?_, fun p hp => ?_, fun q hq => ?_, fun a ha => ?_⟩
  · simp only [pixelAddr, pixelTile, pixelRow, pixelCol, rowAddr, rowTile, rowRow]
    omega
  · simp only [slice_toNat, pixelAddr, pixelTile, pixelRow, pixelCol]
    omega
  · simp only [slice_toNat, rowAddr, rowTile, rowRow, pairBase, tileIndex, rowIndex]
    omega
  · simp only [slice_toNat, rowAddr, tileIndex, rowIndex]
    omega

/-- Settles O27: a read, a failing command and a run over inputs that write nothing leave the arrays alone, and the arrays
decide every command; a VWR out of range is a failing command, and one in range is `vwr_repeat`. -/
theorem readsArePureAndRepeatable : Obligations.ReadsArePureAndRepeatable := by
  refine ⟨fun i s t hi h => ?_, fun i j s t h hj => exec_after_read_or_failure h hj, ?_, fun a v s t hs h => ?_⟩
  · exact ⟨exec_sameArrays_of_not_vwr hi h, (exec_after_read_or_failure h (.inl hi)).trans h⟩
  · intro i ins rest s t u u' hquiet hinputs hrun hu hu'
    have hsame : SameArrays t s := runSteps_sameArrays_of_quiet hquiet hinputs hrun
    exact (hsame.exec_next hu' hu).symm
  · by_cases ha : a.toNat < 0x2000
    · exact vwr_repeat hs ha h
    · have hfail : exec (.vwr a v) s = .next s.raiseOutOfRange := execVwr_of_ge (by omega) v s
      obtain rfl := exec_next_unique hfail h
      exact (exec_after_read_or_failure h (.inr rfl)).trans h

/-- Settles O47: the reset state meets the invariant, whatever the master drives, and every run keeps it. -/
theorem cacheIsCoherentInEveryReachableState : Obligations.CacheIsCoherentInEveryReachableState := by
  intro ins n t h
  have hstart : StateInv { State.reset with inputs := ins } :=
    SameArrays.stateInv (s := State.reset) ⟨rfl, rfl⟩ stateInv_reset
  exact (runSteps_stateInv hstart h).coherent

end

section
/-! PROOFS. The statements about the encoding (rules R40 to R45): the word of four fields as an OR of shifted fields, the
opcode table read as the field `op`, which bits the decoder keeps, and integer operands carried in fields. -/

namespace Sys2Proof

variable (w : Word) (op : BitVec 2) (rsv : BitVec 6) (addr : AddrField) (data : Byte)

/-- The fields do not overlap, so placing them side by side is the OR of the shifted fields (rule R40). -/
theorem commandWord_eq_or :
    commandWord op rsv addr data =
      op.setWidth 32 <<< 30 ||| rsv.setWidth 32 <<< 24 ||| addr.setWidth 32 <<< 8 ||| data.setWidth 32 := by
  refine BitVec.eq_of_getLsbD_eq fun i hi => (bitOf_commandWord op rsv addr data i).trans ?_
  simp only [BitVec.getLsbD_or, BitVec.getLsbD_shiftLeft, BitVec.getLsbD_setWidth, bitOf]
  by_cases hdata : i < 8
  · have : i < 24 := by omega
    have : i < 30 := by omega
    simp [*]
  have hdata_high : data.getLsbD i = false := data.getLsbD_of_ge i (by omega)
  by_cases haddr : i < 24
  · have : i < 30 := by omega
    have : i - 8 < 32 := by omega
    simp [*]
  have haddr_high : addr.getLsbD (i - 8) = false := addr.getLsbD_of_ge _ (by omega)
  by_cases hrsv : i < 30
  · have : i - 24 < 32 := by omega
    simp [*]
  · have hrsv_high : rsv.getLsbD (i - 24) = false := rsv.getLsbD_of_ge _ (by omega)
    have : i - 30 < 32 := by omega
    simp [*]

/-- The mask of the opcode table keeps the field `op` and nothing else (rule R42). -/
theorem and_opMask : w &&& (0xC0000000 : Word) = (opField w).setWidth 32 <<< 30 := by
  have hmask : ∀ i < 32, (0xC0000000 : Word).getLsbD i = decide (30 ≤ i) := by decide
  refine BitVec.eq_of_getLsbD_eq fun i hi => ?_
  have hbit : (opField w).getLsbD (i - 30) = (decide (i - 30 < 2) && w.getLsbD (30 + (i - 30))) := bitOf_opField ..
  rw [BitVec.getLsbD_and, hmask i hi, BitVec.getLsbD_shiftLeft, BitVec.getLsbD_setWidth, hbit]
  by_cases hop : 30 ≤ i
  · have : ¬i < 30 := by omega
    have : i - 30 < 2 := by omega
    have : i - 30 < 32 := by omega
    have : 30 + (i - 30) = i := by omega
    simp [*]
  · simp [hop]

/-- Every row has the same mask, and no two rows have the same pattern. -/
theorem opcodeTable_disjoint :
    ∀ row ∈ opcodeTable, ∀ other ∈ opcodeTable, other.mask = row.mask ∧ (other.pattern = row.pattern → other = row) := by
  decide

/-- The row of the decoded instruction is in the table, and the word matches it (rules R42, R45). -/
theorem exists_row_of_decode :
    ∃ row ∈ opcodeTable, w &&& row.mask = row.pattern ∧ (decode w).mnemonic = row.mnemonic := by
  obtain ⟨hvrd, hvwr, htpx, htrow⟩ := decode_of_op w
  obtain h | h | h | h := opField_cases w
  · exact ⟨⟨"VRD", 0x00000000, 0xC0000000⟩, by decide, (and_opMask w).trans (by rw [h]; rfl), by rw [hvrd h]; rfl⟩
  · exact ⟨⟨"VWR", 0x40000000, 0xC0000000⟩, by decide, (and_opMask w).trans (by rw [h]; rfl), by rw [hvwr h]; rfl⟩
  · exact ⟨⟨"TPX", 0x80000000, 0xC0000000⟩, by decide, (and_opMask w).trans (by rw [h]; rfl), by rw [htpx h]; rfl⟩
  · exact ⟨⟨"TROW", 0xC0000000, 0xC0000000⟩, by decide, (and_opMask w).trans (by rw [h]; rfl), by rw [htrow h]; rfl⟩

/-- What the decoder keeps of a word: `op`, `addr` and, for VWR, `data` (rule R44). -/
theorem encode_decode :
    encode (decode w) = commandWord (opField w) 0 (addrField w) (if opField w = 0b01 then dataField w else 0) := by
  obtain ⟨hvrd, hvwr, htpx, htrow⟩ := decode_of_op w
  obtain h | h | h | h := opField_cases w
  · rw [hvrd h, h]; rfl
  · rw [hvwr h, h]; rfl
  · rw [htpx h, h]; rfl
  · rw [htrow h, h]; rfl

/-- The fields that count decide the command. -/
theorem decode_congr {w w' : Word} (hop : opField w = opField w') (haddr : addrField w = addrField w')
    (hdata : opField w = 0b01 → dataField w = dataField w') : decode w = decode w' := by
  obtain ⟨hvrd, hvwr, htpx, htrow⟩ := decode_of_op w
  obtain ⟨hvrd', hvwr', htpx', htrow'⟩ := decode_of_op w'
  obtain h | h | h | h := opField_cases w
  · rw [hvrd h, hvrd' (hop ▸ h), haddr]
  · rw [hvwr h, hvwr' (hop ▸ h), haddr, hdata h]
  · rw [htpx h, htpx' (hop ▸ h), haddr]
  · rw [htrow h, htrow' (hop ▸ h), haddr]

/-- The command decides the fields that count: they stand in its canonical word. -/
theorem fields_of_decode_eq {w w' : Word} (h : decode w = decode w') :
    opField w = opField w' ∧ addrField w = addrField w' ∧ (opField w = 0b01 → dataField w = dataField w') := by
  have hword := congrArg encode h
  rw [encode_decode, encode_decode] at hword
  have hop : opField w = opField w' := by simpa only [opField_commandWord] using congrArg opField hword
  refine ⟨hop, by simpa only [addrField_commandWord] using congrArg addrField hword, fun hvwr => ?_⟩
  have hdata := congrArg dataField hword
  rwa [dataField_commandWord, dataField_commandWord, if_pos hvwr, if_pos (hop ▸ hvwr)] at hdata

end Sys2Proof

namespace Sys2Proof.Machine

/-- A step at whose port a word is presented runs the command of that word (rule R39). -/
theorem step_drive_commandInput (s : State) (w : Word) : step (s.drive (commandInput w)) = exec (decode w) s.consume :=
  step_command rfl rfl

/-! ## Integer operands (rule R41) -/

variable {a : Int}

/-- An address from 0 to 0xFFFF is the number its field stands for. -/
theorem addressOf_fieldOf (h0 : 0 ≤ a) (h1 : a ≤ 0xFFFF) : addressOf (fieldOf a) = a :=
  (fieldOf_toNat a).trans (by omega)

/-- A negative address `-n` is carried as `0x10000 - n`. -/
theorem fieldOf_toNat_of_neg (h0 : -0x8000 ≤ a) (h1 : a < 0) : ((fieldOf a).toNat : Int) = 0x10000 + a :=
  (fieldOf_toNat a).trans (by omega)

/-- The abstract VWR uses its value masked only (rule R51). -/
theorem vwr_masked (a v : Int) (s : State) : vwr a (Int.ofNat (maskByte v).toNat) s = vwr a v s := by
  rw [vwr, vwr, maskByte_toNat]

/-- No abstract operation accepts a negative address (rules R49, R64, R65). -/
theorem operations_of_neg (h : a < 0) (v : Int) (s : State) :
    vrd a s = s.raiseOutOfRange ∧ vwr a v s = s.raiseOutOfRange ∧ tpx a s = s.raiseOutOfRange ∧
      trow a s = s.raiseOutOfRange := by
  have hneg : ¬0 ≤ a := by omega
  simp [vrd, vwr, tpx, trow, inRange, pixelInRange, rowInRange, hneg]

/-- No command accepts a field from 0x8000 on (rules R49, R64, R65). -/
theorem exec_of_high_field {x : AddrField} (h : 0x8000 ≤ x.toNat) (v : Byte) (s : State) :
    exec (.vrd x) s = .next s.raiseOutOfRange ∧ exec (.vwr x v) s = .next s.raiseOutOfRange ∧
      exec (.tpx x) s = .next s.raiseOutOfRange ∧ exec (.trow x) s = .next s.raiseOutOfRange :=
  ⟨execVrd_of_ge (by omega) s, execVwr_of_ge (by omega) v s, execTpx_of_ge (by omega) s, execTrow_of_ge (by omega) s⟩

/-- A command on a field that stands for the integer `a` is the abstract operation on `a`. -/
theorem exec_of_addressOf {x : AddrField} (h : addressOf x = a) (v : Int) (s : State) :
    exec (.vrd x) s = .next (vrd a s) ∧ exec (.vwr x (maskByte v)) s = .next (vwr a v s) ∧
      exec (.tpx x) s = .next (tpx a s) ∧ exec (.trow x) s = .next (trow a s) := by
  subst h
  exact ⟨rfl, congrArg Host.Outcome.next (vwr_masked _ v s), rfl, rfl⟩

/-- The command with the field `a mod 0x10000` is the abstract operation on `a`: from 0 on the field stands for `a`; below
0 both the operation and the command, whose field is then 0x8000 or more, are out of range. -/
theorem exec_fieldOf (h0 : -0x8000 ≤ a) (h1 : a ≤ 0xFFFF) (v : Int) (s : State) :
    exec (.vrd (fieldOf a)) s = .next (vrd a s) ∧ exec (.vwr (fieldOf a) (maskByte v)) s = .next (vwr a v s) ∧
      exec (.tpx (fieldOf a)) s = .next (tpx a s) ∧ exec (.trow (fieldOf a)) s = .next (trow a s) := by
  by_cases hneg : a < 0
  · have hfield := fieldOf_toNat_of_neg h0 hneg
    obtain ⟨hvrd, hvwr, htpx, htrow⟩ := operations_of_neg hneg v s
    rw [hvrd, hvwr, htpx, htrow]
    exact exec_of_high_field (by omega) (maskByte v) s
  · exact exec_of_addressOf (addressOf_fieldOf (by omega) h1) v s

end Sys2Proof.Machine
end

section
open Sys2Proof Sys2Proof.Machine

/-- Settles O1: every word is the word of its fields, which is the OR of the shifted fields (`commandWord_eq_or`). -/
theorem commandWordHasFourFields : Obligations.CommandWordHasFourFields := by
  refine ⟨fun w => (commandWord_fields w).symm.trans (commandWord_eq_or ..), fun a => ?_, fun a v => ?_, fun p => ?_,
    fun q => ?_⟩ <;> simp [encode, commandWord_eq_or]

/-- Settles O4: the word matches the row of its instruction, and no other row has that pattern under the common mask. -/
theorem everyWordIsExactlyOneCommand : Obligations.EveryWordIsExactlyOneCommand := by
  intro w
  obtain ⟨row, hrow, hmatch, hmnemonic⟩ := exists_row_of_decode w
  refine ⟨row, hrow, hmatch, hmnemonic, fun other hother hw => ?_⟩
  obtain ⟨hmask, hunique⟩ := opcodeTable_disjoint row hrow other hother
  exact hunique (hw.symm.trans (hmask ▸ hmatch))

/-- Settles O5: equal commands have equal canonical words, in which the fields that count stand; and a step reads the
presented word through the decoder only. -/
theorem ignoredBitsChangeNothing : Obligations.IgnoredBitsChangeNothing := by
  refine ⟨fun w w' => ⟨fields_of_decode_eq, fun ⟨hop, haddr, hdata⟩ => decode_congr hop haddr hdata⟩,
    fun s w w' hop haddr hdata => ?_, fun s => ?_⟩
  · rw [step_drive_commandInput, step_drive_commandInput, decode_congr hop haddr hdata]
  · have hdecode : decode 0x80800000 = .tpx 0x8000 := by decide
    rw [hdecode]
    exact execTpx_of_ge (by decide) s

/-- Settles O8: `exec_fieldOf` gives the four commands, `fieldOf_toNat` the number in the field. -/
theorem fieldsCarryIntegerOperands : Obligations.FieldsCarryIntegerOperands := by
  intro a v s h0 h1
  obtain ⟨hvrd, hvwr, htpx, htrow⟩ := exec_fieldOf h0 h1 v s
  refine ⟨hvrd, hvwr, htpx, htrow, fun hpos => addressOf_fieldOf hpos h1, fun hneg => ?_⟩
  have hfield := fieldOf_toNat_of_neg h0 hneg
  exact ⟨hfield, by omega⟩

end

section
/-! PROOFS. The statements about the VRAM store (rules R49 to R51): the bounds check on integers and on fields, and the
two commands that stand behind it. An operation splits on the check once, into the state it then answers; the rest is
read off that state. -/

namespace Sys2Proof.Machine

variable {a : Int} {x : AddrField} {s : State}

/-! ## The bounds check -/

/-- The check of rule R49 with its bounds as numbers. -/
theorem inRange_iff (a : Int) : inRange a = true ↔ 0 ≤ a ∧ a ≤ 0x1FFF := by
  simp only [inRange, Config.vramSize, decide_eq_true_eq]
  omega

/-- On the field the check looks at the top three bits (rule R49). -/
theorem inRange_addressOf_iff_slice (x : AddrField) : inRange (addressOf x) = true ↔ slice 15 13 x = 0 := by
  have hslice : (slice 15 13 x).toNat = x.toNat / 8192 % 8 := slice_toNat 15 13 x
  have hzero : (0 : BitVec (15 - 13 + 1)).toNat = 0 := rfl
  rw [inRange_addressOf, decide_eq_true_eq, ← BitVec.toNat_inj, hslice, hzero]
  omega

theorem inRange_addressOf_of_ge (h : 0x2000 ≤ x.toNat) : inRange (addressOf x) = false := by
  rw [inRange_addressOf, decide_eq_false (Nat.not_lt.2 h)]

/-- Bit 15 of a field is set from 0x8000 on. -/
theorem bitOf_15_of_ge (h : 0x8000 ≤ x.toNat) : bitOf x 15 = true := by
  rw [bitOf, ← BitVec.msb_eq_getLsbD_last, BitVec.msb_eq_decide]
  exact decide_eq_true h

/-! ## The abstract operations, in range and out of range -/

theorem vrd_of_inRange (h : inRange a = true) (s : State) :
    vrd a s = s.respond ((s.readVram a.toNat).setWidth 16) := by rw [vrd, if_pos h]

theorem vrd_of_not_inRange (h : inRange a = false) (s : State) : vrd a s = s.raiseOutOfRange := by
  rw [vrd, h]; rfl

theorem vwr_of_inRange (h : inRange a = true) (v : Int) (s : State) :
    vwr a v s = (tupd a.toNat (s.writeVram a.toNat (maskByte v))).respond 0 := by rw [vwr, if_pos h]

theorem vwr_of_not_inRange (h : inRange a = false) (v : Int) (s : State) : vwr a v s = s.raiseOutOfRange := by
  rw [vwr, h]; rfl

/-- The abstract VWR on an address in range stores its value modulo 256 (rule R51). -/
theorem readVram_vwr_addressOf (hs : Canonical s) (hx : x.toNat < 0x2000) (v : Int) :
    (vwr (addressOf x) v s).readVram x.toNat = maskByte v := by
  obtain ⟨-, hexec, -, -⟩ := exec_of_addressOf (x := x) rfl v s
  obtain ⟨-, -, -, hbyte, -⟩ := vwr_next hs hx hexec
  exact (hbyte x.toNat).trans (if_pos rfl)

end Sys2Proof.Machine
end

section
open Sys2Proof Sys2Proof.Machine

/-- Settles O14: the check splits either operation into its response and its error; on the field it is a comparison with
0x2000, which the image of a negative address, 0x8000 or more, fails. -/
theorem boundsCheckOfTheStore : Obligations.BoundsCheckOfTheStore := by
  refine ⟨inRange_iff, fun a v s h => ?_, fun a v s h => ?_, by decide, by decide, by decide, by decide,
    inRange_addressOf_iff_slice, fun n h1 h2 => ?_⟩
  · rw [vrd_of_not_inRange h, vwr_of_not_inRange h]
    exact ⟨rfl, rfl, rfl, rfl, rfl, rfl⟩
  · rw [vrd_of_inRange h, vwr_of_inRange h]
    exact ⟨⟨_, rfl⟩, _, rfl⟩
  · have hfield := fieldOf_toNat_of_neg (a := -n) (by omega) (by omega)
    exact ⟨bitOf_15_of_ge (by omega), inRange_addressOf_of_ge (by omega)⟩

/-- Settles O22: the word is the one of R40 (`commandWordHasFourFields`); in range `vwr_next` reads the byte and the row
off the state that VWR leaves, and out of range that state is the error. -/
theorem vwrStoresAndUpdatesOneRow : Obligations.VwrStoresAndUpdatesOneRow := by
  intro a v s hs
  obtain ⟨-, -, hword, -, -⟩ := commandWordHasFourFields
  refine ⟨hword a v, fun ha => ?_, fun ha => ⟨_, execVwr_of_ge ha v s, rfl, rfl, rfl, rfl⟩,
    fun x => ⟨maskByte_toNat_int x, fun ha => readVram_vwr_addressOf hs ha x⟩⟩
  obtain ⟨-, hrsp, hinputs, hbyte, hpixel⟩ := vwr_next hs ha (execVwr_of_lt ha v s)
  exact ⟨_, execVwr_of_lt ha v s, hrsp, hinputs, fun b _ => hbyte b, fun n _ r hr c hc => hpixel n r c hr hc⟩

/-- Settles O21: the word is the one of R40 (`commandWordHasFourFields`), and VRD answers with the byte or with the error
in a state that differs from `s` in the response port only. -/
theorem vrdReturnsTheStoredByte : Obligations.VrdReturnsTheStoredByte := by
  intro a s
  obtain ⟨-, hword, -, -, -⟩ := commandWordHasFourFields
  exact ⟨hword a, fun ha => ⟨_, execVrd_of_lt ha s, rfl, rfl, rfl, rfl⟩,
    fun ha => ⟨_, execVrd_of_ge ha s, rfl, rfl, rfl, rfl⟩⟩

end

section
/-! PROOFS. The statements about the tile update (rules R52 to R63): the addressing of a pair, the splitter, the
write-back, and what a VWR leaves in its row. A VWR to tile data leaves the row as a function of the pair's two bytes
and every other pixel as before; so any two sequences of writes to one pair that end in the same bytes end in the same
state (`PairWritten.ext`). -/

namespace Sys2Proof.Machine

variable {s t t' u : State} {a : AddrField} {v : Byte}

/-! ## The pair, its row and its tile (rules R53, R54) -/

/-- Bit 0 of a field is its parity. -/
theorem bitOf_zero_eq_decide (a : AddrField) : bitOf a 0 = decide (a.toNat % 2 = 1) := Nat.testBit_zero _

/-- `a & ~1` is `2 * (a / 2)` (rule R8): clearing bit 0 is shifting it out and back. -/
theorem toNat_and_not_one (a : AddrField) : (a &&& ~~~1#16).toNat = pairBase a.toNat := by
  have hshift : a &&& ~~~1#16 = a >>> 1 <<< 1 :=
    (BitVec.shiftLeft_ushiftRight (x := a) (n := 1)).symm
  rw [hshift, BitVec.toNat_shiftLeft, BitVec.toNat_ushiftRight, Nat.shiftLeft_eq, Nat.shiftRight_eq_div_pow, pairBase]
  omega

theorem pairBase_eq_sub_mod (b : Nat) : pairBase b = b - b % 2 := by
  unfold pairBase
  omega

/-- The two bytes of a pair have the same update (rule R53). -/
theorem tupd_pairBase_succ {b : Nat} (hb : pairBase b + 1 < 0x1800) (s : State) :
    tupd (pairBase b) s = tupd (pairBase b + 1) s := by
  obtain ⟨hbase, hbase', htile, hrow⟩ := pair_selection b
  rw [tupd_of_lt s (by omega), tupd_of_lt s hb, hbase, hbase', htile, hrow]

/-- The row an address selects is the one whose bytes start at its pair base. -/
theorem selects_row_iff {b n r : Nat} (hr : r < 8) :
    n = tileIndex b ∧ r = rowIndex b ↔ 16 * n + 2 * r = pairBase b := by
  unfold tileIndex rowIndex pairBase
  omega

/-! ## The splitter (rules R56, R63) -/

/-- The number of the variant is twice the plane1 bit plus the plane2 bit. -/
theorem code_pv_toNat (b1 b2 : Bool) : (pv b1 b2).code.toNat = 2 * b1.toNat + b2.toNat := by
  cases b1 <;> cases b2 <;> rfl

/-- With no bit of plane 2 set, a row shows `Zero` and `Two` only. -/
theorem splitRow_zero_right (plane1 : Byte) (c : Nat) :
    splitRow plane1 0 c = .zero ∨ splitRow plane1 0 c = .two := by
  simp only [splitRow, bitOf, BitVec.ofNat_eq_ofNat, BitVec.getLsbD_zero]
  cases plane1.getLsbD (7 - c)
  · exact .inl rfl
  · exact .inr rfl

/-- With no bit of plane 1 set, a row shows `Zero` and `One` only. -/
theorem splitRow_zero_left (plane2 : Byte) (c : Nat) :
    splitRow 0 plane2 c = .zero ∨ splitRow 0 plane2 c = .one := by
  simp only [splitRow, bitOf, BitVec.ofNat_eq_ofNat, BitVec.getLsbD_zero]
  cases plane2.getLsbD (7 - c)
  · exact .inl rfl
  · exact .inr rfl

/-! ## VWR to tile data (rules R59, R62) -/

/-- Values that agree modulo 256 are masked to the same byte (rule R51). -/
theorem maskByte_congr {v w : Int} (h : v % 256 = w % 256) : maskByte v = maskByte w := by
  have hnat : ((maskByte v).toNat : Int) = (maskByte w).toNat := by rw [maskByte_toNat_int, maskByte_toNat_int, h]
  exact BitVec.eq_of_toNat_eq (Int.ofNat.inj hnat)

/-- What every VWR to the pair at `p` does, whichever byte it writes and whatever it writes there: it answers OK, the
row of the pair becomes the split of the two bytes that the pair then has, and every other pixel stays. -/
structure PairWritten (p : Nat) (s t : State) : Prop where
  canonical : Canonical t
  rsp : t.rsp = some (.ok 0)
  inputs : t.inputs = s.inputs
  pixel : ∀ n r c, r < 8 → c < 8 →
    t.pixel n r c =
      if 16 * n + 2 * r = p then splitRow (t.readVram p) (t.readVram (p + 1)) c else s.pixel n r c

/-- A VWR to tile data is such a write, to the pair of its address. -/
theorem vwr_pairWritten (hs : Canonical s) (ha : a.toNat < 0x1800) (h : exec (.vwr a v) s = .next t) :
    PairWritten (pairBase a.toNat) s t := by
  obtain ⟨ht, hrsp, hinputs, -, hpixel⟩ := vwr_next hs (by omega) h
  refine ⟨ht, hrsp, hinputs, fun n r c hr hc => ?_⟩
  rw [hpixel n r c hr hc]
  simp only [ha, true_and, selects_row_iff hr]

/-- Two writes to the same pair act on the pixels as one. -/
theorem PairWritten.trans {p : Nat} (h : PairWritten p s t) (h' : PairWritten p t u) : PairWritten p s u where
  canonical := h'.canonical
  rsp := h'.rsp
  inputs := h'.inputs.trans h.inputs
  pixel n r c hr hc := by
    rw [h'.pixel n r c hr hc]
    split
    case isTrue => rfl
    case isFalse hrow => rw [h.pixel n r c hr hc, if_neg hrow]

/-- The bytes that writes to a pair leave decide the whole state they leave. -/
theorem PairWritten.ext {p : Nat} (h : PairWritten p s t) (h' : PairWritten p s t')
    (hread : ∀ b, t.readVram b = t'.readVram b) : t = t' := by
  refine state_ext (vram_ext h.canonical.1 h'.canonical.1 fun b _ => hread b)
    (tiles_ext h.canonical.2 h'.canonical.2 fun n _ r hr c hc => ?_) (h.rsp.trans h'.rsp.symm)
    (h.inputs.trans h'.inputs.symm)
  rw [h.pixel n r c hr hc, h'.pixel n r c hr hc, hread, hread]

/-- The row of the address holds the split of the pair's bytes. -/
theorem vwr_row (hs : Canonical s) (ha : a.toNat < 0x1800) (h : exec (.vwr a v) s = .next t) {c : Nat} (hc : c < 8) :
    t.pixel (tileIndex a.toNat) (rowIndex a.toNat) c =
      splitRow (t.readVram (pairBase a.toNat)) (t.readVram (pairBase a.toNat + 1)) c := by
  rw [(vwr_pairWritten hs ha h).pixel _ _ c (rowIndex_lt _) hc, if_pos (pairBase_eq _)]

/-- A VWR to the even byte splits the new byte with the odd byte that was there. -/
theorem vwr_row_of_even (hs : Canonical s) (ha : a.toNat < 0x1800) (h : exec (.vwr a v) s = .next t)
    (heven : a.toNat % 2 = 0) {c : Nat} (hc : c < 8) :
    t.pixel (tileIndex a.toNat) (rowIndex a.toNat) c = splitRow v (s.readVram (a.toNat + 1)) c := by
  obtain ⟨-, -, -, hbyte, -⟩ := vwr_next hs (by omega) h
  have hpair : pairBase a.toNat = a.toNat := by rw [pairBase_eq_sub_mod, heven, Nat.sub_zero]
  rw [vwr_row hs ha h hc, hpair, hbyte, hbyte, if_pos rfl, if_neg (by omega)]

/-- A VWR to the odd byte splits the even byte that was there with the new byte. -/
theorem vwr_row_of_odd (hs : Canonical s) (ha : a.toNat < 0x1800) (h : exec (.vwr a v) s = .next t)
    (hodd : a.toNat % 2 = 1) {c : Nat} (hc : c < 8) :
    t.pixel (tileIndex a.toNat) (rowIndex a.toNat) c = splitRow (s.readVram (a.toNat - 1)) v c := by
  obtain ⟨-, -, -, hbyte, -⟩ := vwr_next hs (by omega) h
  have hpair : pairBase a.toNat = a.toNat - 1 := by rw [pairBase_eq_sub_mod, hodd]
  have hsucc : a.toNat - 1 + 1 = a.toNat := by omega
  rw [vwr_row hs ha h hc, hpair, hsucc, hbyte, hbyte, if_neg (by omega), if_pos rfl]

/-- The store after two writes in tile data: the later one counts where both write the same byte. -/
theorem readVram_vwr_vwr {a a' : AddrField} {v v' : Byte} (hs : Canonical s) (ha : a.toNat < 0x1800)
    (ha' : a'.toNat < 0x1800) (h : exec (.vwr a v) s = .next t) (h' : exec (.vwr a' v') t = .next u) (b : Nat) :
    u.readVram b = if b = a'.toNat then v' else if b = a.toNat then v else s.readVram b := by
  obtain ⟨ht, -, -, hbyte, -⟩ := vwr_next hs (by omega) h
  obtain ⟨-, -, -, hbyte', -⟩ := vwr_next ht (by omega) h'
  rw [hbyte', hbyte]

/-- Two writes to the bytes of one pair are, together, a write to that pair. -/
theorem vwr_vwr_pairWritten {a a' : AddrField} {v v' : Byte} (hs : Canonical s) (ha : a.toNat < 0x1800)
    (ha' : a'.toNat < 0x1800) (hpair : pairBase a'.toNat = pairBase a.toNat) (h : exec (.vwr a v) s = .next t)
    (h' : exec (.vwr a' v') t = .next u) : PairWritten (pairBase a.toNat) s u :=
  (vwr_pairWritten hs ha h).trans (hpair ▸ vwr_pairWritten (exec_canonical hs h) ha' h')

/-- The two bytes of a pair may be written in either order (rule R62). -/
theorem vwr_comm_of_pair {e o : AddrField} {v w : Byte} {u' : State} (hs : Canonical s) (he : e.toNat < 0x1800)
    (hbase : e.toNat = pairBase e.toNat) (ho : o.toNat = e.toNat + 1) (ht : exec (.vwr e v) s = .next t)
    (hu : exec (.vwr o w) t = .next u) (ht' : exec (.vwr o w) s = .next t') (hu' : exec (.vwr e v) t' = .next u') :
    u = u' := by
  have ho' : o.toNat < 0x1800 := by unfold pairBase at hbase; omega
  have hpair : pairBase o.toNat = pairBase e.toNat := by unfold pairBase at hbase ⊢; omega
  have hw := vwr_vwr_pairWritten hs he ho' hpair ht hu
  have hw' := vwr_vwr_pairWritten hs ho' he hpair.symm ht' hu'
  refine hw.ext (hpair ▸ hw') fun b => ?_
  rw [readVram_vwr_vwr hs he ho' ht hu, readVram_vwr_vwr hs ho' he ht' hu']
  by_cases hb : b = e.toNat
  · have : b ≠ o.toNat := by omega
    simp [hb, ho]
  · simp [hb]

/-- Of two writes to the same byte only the last counts (rule R62). -/
theorem vwr_of_vwr {w : Byte} (hs : Canonical s) (ha : a.toNat < 0x1800) (ht : exec (.vwr a v) s = .next t)
    (hu : exec (.vwr a w) t = .next u) : exec (.vwr a w) s = .next u := by
  obtain ⟨u', hu', -⟩ := exec_cases (.vwr a w) s
  obtain ⟨-, -, -, hbyte, -⟩ := vwr_next hs (by omega) hu'
  have hread : ∀ b, u'.readVram b = u.readVram b := fun b => by
    rw [hbyte, readVram_vwr_vwr hs ha ha ht hu]
    by_cases hb : b = a.toNat <;> simp [hb]
  rw [hu', (vwr_pairWritten hs ha hu').ext (vwr_vwr_pairWritten hs ha ha rfl ht hu) hread]

end Sys2Proof.Machine
end

section
open Sys2Proof Sys2Proof.Machine

/-- Settles O15: `a & ~1` is `pairBase a` (`toNat_and_not_one`), bit 0 is the parity, and both bytes of a pair select
the same row (`tupd_pairBase_succ`). -/
theorem pairBaseClearsTheLowBit : Obligations.PairBaseClearsTheLowBit := by
  intro a ha
  obtain ⟨hbase, hbase', -, -⟩ := pair_selection a.toNat
  have hpair : pairBase a.toNat = a.toNat - a.toNat % 2 := pairBase_eq_sub_mod _
  rw [bitOf_zero_eq_decide, decide_eq_false_iff_not, decide_eq_true_iff]
  exact ⟨(toNat_and_not_one a).symm, by omega, by omega, by omega, by omega, by omega, by omega, hbase, hbase',
    fun s => tupd_pairBase_succ (by omega) s⟩

/-- Settles O19: the write-back gives every pixel (`pixel_writeRow`), and it has no effect on the store. -/
theorem writeBackStoresOneRow : Obligations.WriteBackStoresOneRow := by
  intro s row hs t ht r hr
  refine ⟨writeRow_vram .., fun c hc => ?_, fun t' _ r' hr' c hc hne => ?_⟩
  · rw [pixel_writeRow hs.2 ht hr hr hc, if_pos ⟨rfl, rfl⟩]
  · rw [pixel_writeRow hs.2 ht hr hr' hc, if_neg fun ⟨htile, hrow⟩ => hne (by rw [htile, hrow])]

/-- Settles O20: `pixel_tupd` with the pair base written as `a - a % 2`; the update keeps the store and the response. -/
theorem updateRewritesThePairsRow : Obligations.UpdateRewritesThePairsRow := by
  intro a s _ hs
  refine ⟨fun t _ r hr c hc => ?_, fun b _ => readVram_congr (tupd_vram s a) b, tupd_rsp s a⟩
  rw [← pairBase_eq_sub_mod]
  exact pixel_tupd hs.2 hr hc

/-- Settles O28: the pixels a VWR changes are in the row whose bytes start at the pair base of its address. -/
theorem vwrIsLocalToOneRow : Obligations.VwrIsLocalToOneRow := by
  intro a v s t hs ha h n _ r hr c hc hne
  obtain ⟨hpair, -⟩ := vwr_changed_pixel hs (by omega) h hr hc hne
  exact (selects_row_iff hr).2 hpair.symm

/-- Settles O29: from 0x1800 on the update is a no-op, and from 0x2000 on the VWR is the error. -/
theorem tileMapWritesLeaveTheCache : Obligations.TileMapWritesLeaveTheCache := by
  intro a v s hs ha
  by_cases hrange : a.toNat < 0x2000
  · have h : exec (.vwr a v) s = .next ((tupd a.toNat (s.writeVram a.toNat v)).respond 0) := execVwr_of_lt hrange v s
    obtain ⟨-, hrsp, -, hbyte, -⟩ := vwr_next hs hrange h
    refine ⟨_, h, ?_, fun _ => ⟨hrsp, by rw [hbyte, if_pos rfl]⟩, fun hge => by omega⟩
    rw [respond_tiles, tupd_of_ge _ ha, writeVram_tiles]
  · exact ⟨_, execVwr_of_ge (by omega) v s, rfl, fun hle => by omega, fun _ => ⟨rfl, rfl⟩⟩

/-- Settles O30: a repeated VWR leaves the very state it finds (`readsArePureAndRepeatable`), and the value is used
masked only. -/
theorem vwrIsIdempotent : Obligations.VwrIsIdempotent := by
  obtain ⟨-, -, -, hrepeat⟩ := readsArePureAndRepeatable
  refine ⟨fun a v s t u hs ht hu => ?_, fun a v w s h => ?_⟩
  · obtain rfl := exec_next_unique (hrepeat a v s t hs ht) hu
    exact ⟨rfl, rfl⟩
  · rw [← vwr_masked a v s, maskByte_congr h, vwr_masked]

/-- Settles O31: the row of a VWR is the split of its pair, and equal bytes after writes to one pair make equal states
(`PairWritten.ext`). -/
theorem rowIsAFunctionOfThePair : Obligations.RowIsAFunctionOfThePair :=
  ⟨fun _ _ _ _ hs ha h _ hc => vwr_row hs ha h hc,
    fun _ _ _ _ _ _ _ _ _ hs he hbase ho ht hu ht' hu' => vwr_comm_of_pair hs he hbase ho ht hu ht' hu',
    fun _ _ _ _ _ _ hs ha ht hu => vwr_of_vwr hs ha ht hu⟩

/-- Settles O32: the row is the split of the new byte with the old one, on the side its parity says; with 0x00 on the
other side only two variants are left. -/
theorem partialPairRows : Obligations.PartialPairRows := by
  intro a v s t hs ha h c hc
  refine ⟨fun heven => ?_, fun hodd => ?_⟩
  · have hrow := vwr_row_of_even hs ha h heven hc
    refine ⟨hrow, fun hzero => ?_⟩
    rw [hzero] at hrow
    exact hrow ▸ splitRow_zero_right v c
  · have hrow := vwr_row_of_odd hs ha h hodd hc
    refine ⟨hrow, fun hzero => ?_⟩
    rw [hzero] at hrow
    exact hrow ▸ splitRow_zero_left v c

/-- Settles O16: the slices are read as numbers (`slice_toNat`), and the row of a pair starts at its base
(`pairBase_eq`). -/
theorem tileAndRowSelection : Obligations.TileAndRowSelection := by
  intro a ha
  have htile : (slice 12 4 a).toNat = a.toNat / 16 % 512 := slice_toNat 12 4 a
  have hrow : (slice 3 1 a).toNat = a.toNat / 2 % 8 := slice_toNat 3 1 a
  rw [htile, hrow]
  exact ⟨rfl, by unfold tileIndex; omega, Nat.le_of_lt_succ (tileIndex_lt ha), rfl, by unfold rowIndex; omega,
    Nat.le_of_lt_succ (rowIndex_lt _), pairBase_eq _⟩

/-- Settles O17: the code of `PV` has the plane bits as its two bits (`bitOf_code_pv`), and so as its number. -/
theorem splitterFollowsThePlaneTable : Obligations.SplitterFollowsThePlaneTable := by
  refine ⟨rfl, rfl, rfl, rfl, fun plane1 plane2 c _ => ?_⟩
  obtain ⟨hbit1, hbit0⟩ := bitOf_code_pv (bitOf plane1 (7 - c)) (bitOf plane2 (7 - c))
  exact ⟨rfl, hbit1, hbit0, code_pv_toNat ..⟩

/-- Settles O18: the two cases of the update are `tupd_of_ge` and `tupd_of_lt`; on an address in range the trigger is a
comparison with 0x1800, where bits 12:11 become 0b11. -/
theorem updateTriggersBelowTileDataEnd : Obligations.UpdateTriggersBelowTileDataEnd := by
  refine ⟨fun a s ha => tupd_of_ge s ha, fun a ha => ?_, fun a s ha => tupd_of_lt s ha⟩
  have hslice : (slice 12 11 a).toNat = a.toNat / 2048 % 4 := slice_toNat 12 11 a
  have hthree : (0b11 : BitVec (12 - 11 + 1)).toNat = 3 := rfl
  rw [triggersUpdate_eq, decide_eq_false_iff_not, ← BitVec.toNat_inj, hslice, hthree]
  omega

end

section
/-! PROOFS. The statements about the tile-cache reads (rules R64, R65): the addressed pixel or row by the slices of the
field, and the row word of a coherent cache as the interleave of the two bytes of the row. -/

namespace Sys2Proof.Machine

/-- In a coherent cache the two bits of column `c` of the row word are the bits `7 - c` of the row's even and odd byte
(rules R35, R56, R65). -/
theorem Coherent.rowWord_interleave {s : State} (hs : Coherent s) {n r c : Nat} (hn : n < 384) (hr : r < 8)
    (hc : c < 8) :
    bitOf (rowWord (s.pixel n r)) (15 - 2 * c) = bitOf (s.readVram (16 * n + 2 * r)) (7 - c) ∧
      bitOf (rowWord (s.pixel n r)) (14 - 2 * c) = bitOf (s.readVram (16 * n + 2 * r + 1)) (7 - c) := by
  obtain ⟨hodd, heven⟩ := bitOf_rowWord (s.pixel n r) hc
  rw [hodd, heven, hs n hn r hr c hc]
  exact bitOf_code_pv ..

end Sys2Proof.Machine
end

section
open Sys2Proof Sys2Proof.Machine

/-- Settles O24: the word is the one of R40 (`commandWordHasFourFields`), the slices are the tile and the row of the
address (`flatTileAddressesRoundTrip`), and the two bytes of that row stand at `2 * q` and `2 * q + 1`. -/
theorem trowReturnsTheRowWord : Obligations.TrowReturnsTheRowWord := by
  intro q s
  obtain ⟨-, -, -, -, hword⟩ := commandWordHasFourFields
  obtain ⟨-, -, hslices, -⟩ := flatTileAddressesRoundTrip
  refine ⟨hword q, fun hq => ⟨_, _, execTrow_of_lt hq s, rfl, fun c hc => ?_, fun hs c hc => ?_, rfl, rfl, rfl⟩,
    fun hq => ⟨_, execTrow_of_ge hq s, rfl, rfl, rfl, rfl⟩⟩
  · obtain ⟨htile, hrow, -⟩ := hslices q hq
    rw [← htile, ← hrow]
    exact rowWord_column _ hc
  · have hbytes : 2 * q.toNat = 16 * (q.toNat / 8) + 2 * (q.toNat % 8) := by omega
    rw [hbytes]
    exact hs.rowWord_interleave (by omega) (by omega) hc

/-- Settles O23: the word is the one of R40 (`commandWordHasFourFields`), and the slices are the tile, the row and the
column of the address (`flatTileAddressesRoundTrip`). -/
theorem tpxReturnsThePixelCode : Obligations.TpxReturnsThePixelCode := by
  intro p s
  obtain ⟨-, -, -, hword, -⟩ := commandWordHasFourFields
  obtain ⟨-, hslices, -, -⟩ := flatTileAddressesRoundTrip
  refine ⟨hword p, fun hp => ⟨_, execTpx_of_lt hp s, ?_, rfl, rfl, rfl⟩,
    fun hp => ⟨_, execTpx_of_ge hp s, rfl, rfl, rfl, rfl⟩⟩
  obtain ⟨htile, hrow, hcol, -⟩ := hslices p hp
  rw [← htile, ← hrow, ← hcol]
  rfl

end

section
/-! PROOFS. The statements about exceptions (rules R66, R68, R71): a command is in range and answers OK, or it is out of
range and raises `OutOfRange` and does nothing else. -/

namespace Sys2Proof.Machine

variable {i : Instr} {s t : State}

/-- A command in range answers OK (rules R49, R64 to R66). -/
theorem exec_of_commandInRange (h : commandInRange i = true) (s : State) :
    ∃ t d, exec i s = .next t ∧ t.rsp = some (.ok d) := by
  cases i with
  | vrd a => exact ⟨_, _, execVrd_of_lt (of_decide_eq_true h) s, rfl⟩
  | vwr a v => exact ⟨_, _, execVwr_of_lt (of_decide_eq_true h) v s, rfl⟩
  | tpx p => exact ⟨_, _, execTpx_of_lt (of_decide_eq_true h) s, rfl⟩
  | trow q => exact ⟨_, _, execTrow_of_lt (of_decide_eq_true h) s, rfl⟩

/-- A command out of range raises `OutOfRange` and does nothing else (rules R66, R68). -/
theorem exec_of_not_commandInRange (h : commandInRange i = false) (s : State) :
    exec i s = .next s.raiseOutOfRange := by
  cases i with
  | vrd a => exact execVrd_of_ge (Nat.not_lt.1 (of_decide_eq_false h)) s
  | vwr a v => exact execVwr_of_ge (Nat.not_lt.1 (of_decide_eq_false h)) v s
  | tpx p => exact execTpx_of_ge (Nat.not_lt.1 (of_decide_eq_false h)) s
  | trow q => exact execTrow_of_ge (Nat.not_lt.1 (of_decide_eq_false h)) s

/-- A command answers `OutOfRange` exactly when its operand is out of range (rule R66). -/
theorem exec_rsp_outOfRange_iff (h : exec i s = .next t) :
    t.rsp = some .outOfRange ↔ commandInRange i = false := by
  cases hrange : commandInRange i with
  | true =>
    obtain ⟨u, d, hu, hok⟩ := exec_of_commandInRange hrange s
    obtain rfl := exec_next_unique h hu
    simp [hok]
  | false =>
    obtain rfl := exec_next_unique h (exec_of_not_commandInRange hrange s)
    simp

end Sys2Proof.Machine
end

section
open Sys2Proof Sys2Proof.Machine

/-- Settles O34: `exec_rsp_outOfRange_iff` gives the causes, the update keeps the response port and a reset clears it. -/
theorem outOfRangeCauses : Obligations.OutOfRangeCauses := by
  refine ⟨fun i s => ?_, fun a s => tupd_rsp s a, fun s _ => by simp⟩
  obtain ⟨t, h, -⟩ := exec_cases i s
  refine ⟨t, h, (exec_rsp_outOfRange_iff h).trans ?_⟩
  cases i <;> simp [commandInRange]

/-- Settles O35: a command that fails keeps both arrays, so every byte and every pixel reads as before. -/
theorem failingCommandsChangeNothing : Obligations.FailingCommandsChangeNothing := by
  intro i s t h hrsp
  have hsame : SameArrays t s := exec_sameArrays_of_outOfRange h hrsp
  exact ⟨hsame, hsame.readVram_eq, hsame.pixel_eq⟩

/-- Settles O36: a failing command changes at most the response port, which no command reads. -/
theorem errorsLeaveNoTrace : Obligations.ErrorsLeaveNoTrace :=
  fun _ _ _ _ h hrsp => exec_after_read_or_failure h (.inr hrsp)

end

section
/-! PROOFS. Every command is answered (rule R85), and the reset state meets the invariant (rules R35, R79). -/

namespace Sys2Proof.Machine

/-- A command answers a next state whose response port holds a response, whatever the state (rule R85). -/
theorem exec_completes (i : Instr) (s : State) : ∃ t r, exec i s = .next t ∧ t.rsp = some r := by
  obtain ⟨t, h, -, hrsp, -⟩ := exec_cases i s
  obtain ⟨r, hr⟩ := Option.isSome_iff_exists.1 hrsp
  exact ⟨t, r, h, hr⟩

end Sys2Proof.Machine
end

section
open Sys2Proof Sys2Proof.Machine

/-- Settles O43: a presented word is run as the command it decodes to, and every command completes. -/
theorem everyCommandCompletes : Obligations.EveryCommandCompletes := by
  refine ⟨exec_completes, fun w s => ?_⟩
  rw [step_drive_commandInput]
  exact exec_completes (decode w) s.consume

/-- Settles O45: at reset both lists are empty, so every byte is 0 and every pixel is the decode of zero bytes. -/
theorem resetMeetsTheInvariant : Obligations.ResetMeetsTheInvariant := stateInv_reset

end

section
/-! PROOFS. Decoder and encoder against each other (rules R40, R42, R44 to R46): what the word of four fields decodes to,
and the masks that clear its ignored bits. -/

namespace Sys2Proof

variable (w : Word) (rsv : BitVec 6) (addr : AddrField) (data : Byte)

/-- What a word decodes to, read off its fields (rule R42). -/
theorem decode_commandWord :
    decode (commandWord 0b00 rsv addr data) = .vrd addr ∧ decode (commandWord 0b01 rsv addr data) = .vwr addr data ∧
      decode (commandWord 0b10 rsv addr data) = .tpx addr ∧ decode (commandWord 0b11 rsv addr data) = .trow addr := by
  refine ⟨?vrd, ?vwr, ?tpx, ?trow⟩
  case vrd =>
    obtain ⟨h, -, -, -⟩ := decode_of_op (commandWord 0b00 rsv addr data)
    rw [h (opField_commandWord ..), addrField_commandWord]
  case vwr =>
    obtain ⟨-, h, -, -⟩ := decode_of_op (commandWord 0b01 rsv addr data)
    rw [h (opField_commandWord ..), addrField_commandWord, dataField_commandWord]
  case tpx =>
    obtain ⟨-, -, h, -⟩ := decode_of_op (commandWord 0b10 rsv addr data)
    rw [h (opField_commandWord ..), addrField_commandWord]
  case trow =>
    obtain ⟨-, -, -, h⟩ := decode_of_op (commandWord 0b11 rsv addr data)
    rw [h (opField_commandWord ..), addrField_commandWord]

/-- The decoder undoes the encoder, with every operand at every value. -/
theorem decode_encode (i : Instr) : decode (encode i) = i := by
  cases i with
  | vrd a => obtain ⟨h, -, -, -⟩ := decode_commandWord 0 a 0; exact h
  | vwr a v => obtain ⟨-, h, -, -⟩ := decode_commandWord 0 a v; exact h
  | tpx p => obtain ⟨-, -, h, -⟩ := decode_commandWord 0 p 0; exact h
  | trow q => obtain ⟨-, -, -, h⟩ := decode_commandWord 0 q 0; exact h

/-- A mask acts on a word field by field. -/
theorem commandWord_and (op op' : BitVec 2) (rsv rsv' : BitVec 6) (addr addr' : AddrField) (data data' : Byte) :
    commandWord op rsv addr data &&& commandWord op' rsv' addr' data' =
      commandWord (op &&& op') (rsv &&& rsv') (addr &&& addr') (data &&& data') := by
  refine BitVec.and_append.trans (congrArg (· ++ (data &&& data')) ?_)
  rw [BitVec.and_append, BitVec.and_append]

/-- The mask 0xC0FFFFFF clears `rsv` (rule R40). -/
theorem and_rsvMask : w &&& (0xC0FFFFFF : Word) = commandWord (opField w) 0 (addrField w) (dataField w) := by
  have hmask : (0xC0FFFFFF : Word) = commandWord (.allOnes 2) 0 (.allOnes 16) (.allOnes 8) := by decide
  calc w &&& 0xC0FFFFFF
      = commandWord (opField w) (rsvField w) (addrField w) (dataField w) &&& 0xC0FFFFFF := by rw [commandWord_fields]
    _ = commandWord (opField w) 0 (addrField w) (dataField w) := by
      simp only [hmask, commandWord_and, BitVec.and_allOnes, BitVec.and_zero, BitVec.ofNat_eq_ofNat]

/-- The mask 0xC0FFFF00 clears `rsv` and `data` (rule R40). -/
theorem and_rsvDataMask : w &&& (0xC0FFFF00 : Word) = commandWord (opField w) 0 (addrField w) 0 := by
  have hmask : (0xC0FFFF00 : Word) = commandWord (.allOnes 2) 0 (.allOnes 16) 0 := by decide
  calc w &&& 0xC0FFFF00
      = commandWord (opField w) (rsvField w) (addrField w) (dataField w) &&& 0xC0FFFF00 := by rw [commandWord_fields]
    _ = commandWord (opField w) 0 (addrField w) 0 := by
      simp only [hmask, commandWord_and, BitVec.and_allOnes, BitVec.and_zero, BitVec.ofNat_eq_ofNat]

/-- A word is canonical when its `rsv` is 0 and, for every command but VWR, its `data` (rule R44). -/
theorem canonicalWord_iff : canonicalWord w = true ↔ rsvField w = 0 ∧ (opField w = 0b01 ∨ dataField w = 0) := by
  simp only [canonicalWord, Bool.and_eq_true, Bool.or_eq_true, beq_iff_eq]
  rfl

/-- The canonical words are those that encode what they decode to. -/
theorem canonicalWord_iff_encode_decode : canonicalWord w = true ↔ encode (decode w) = w := by
  rw [canonicalWord_iff, encode_decode]
  constructor
  · rintro ⟨hrsv, hdata⟩
    have hkept : (if opField w = 0b01 then dataField w else 0) = dataField w := by
      split
      case isTrue => rfl
      case isFalse hop => exact (hdata.resolve_left hop).symm
    rw [hkept, ← hrsv, commandWord_fields]
  · intro h
    have hrsv := congrArg rsvField h
    have hdata := congrArg dataField h
    rw [rsvField_commandWord] at hrsv
    rw [dataField_commandWord] at hdata
    refine ⟨hrsv.symm, or_iff_not_imp_left.2 fun hop => ?_⟩
    rw [if_neg hop] at hdata
    exact hdata.symm

theorem canonicalWord_encode (i : Instr) : canonicalWord (encode i) = true := by
  rw [canonicalWord_iff_encode_decode, decode_encode]

/-- A number that fits the string is presented as the word of that number. -/
theorem presentedWord_of_lt {nbits n : Nat} (h : n < 2 ^ nbits) : presentedWord nbits n = BitVec.ofNat 32 n := by
  rw [presentedWord, Nat.mod_eq_of_lt h]

/-- A word, given as its number, is presented as itself. -/
theorem presentedWord_toNat : presentedWord 32 w.toNat = w := by
  rw [presentedWord_of_lt w.isLt, BitVec.ofNat_toNat, BitVec.setWidth_eq]

end Sys2Proof
end

section
open Sys2Proof Sys2Proof.Machine

/-- Settles O2: an instruction is encoded as a word of its own opcode and operands, which decodes to them
(`decode_commandWord`). -/
theorem decodeOfEncodeIsTheInstruction : Obligations.DecodeOfEncodeIsTheInstruction := decode_encode

/-- Settles O3: decoding and encoding keeps `op`, `addr` and, for VWR, `data` (`encode_decode`), which is what either mask
leaves of the word. -/
theorem encodeOfDecodeClearsIgnoredBits : Obligations.EncodeOfDecodeClearsIgnoredBits := by
  refine fun w => ⟨?_, canonicalWord_iff_encode_decode w⟩
  rw [encode_decode, and_rsvMask, and_rsvDataMask]
  split <;> rfl

/-- Settles O6: each word is read by the decoder, by evaluation. -/
theorem sampleWordsDecode : Obligations.SampleWordsDecode := by
  unfold Obligations.SampleWordsDecode
  decide

/-- Settles O7: up to 32 bits the string is presented as the word of its number, and above them it is refused. -/
theorem commandsAreOneWordLong : Obligations.CommandsAreOneWordLong := by
  refine fun nbits w => ⟨fun hbits hw => ?_, fun hbits => ?_⟩
  · rw [decodeTableWord, decodePresented, if_pos hbits, presentedWord_of_lt hw]
    rfl
  · rw [decodeTableWord, decodePresented, if_neg (Nat.not_le.2 hbits)]
    rfl

end

section
/-! PROOFS. The invariant, frames and isolation (rules R17, R21, R34, R35, R81): the cache is the decode of the tile data,
tile reads look at the cache only, and the row of a pair reads as its two bytes after every write to it. -/

namespace Sys2Proof.Machine

variable {s s' t t' u : State} {i : Instr}

/-! ## The cache and the tile data -/

/-- The reference decode reads below 0x1800 only (rule R34). -/
theorem decodeAll_congr {V W : Nat → Byte} (h : ∀ a < 0x1800, V a = W a) {n r : Nat} (hn : n < 384) (hr : r < 8)
    (c : Nat) : decodeAll V n r c = decodeAll W n r c := by
  rw [decodeAll_eq_splitRow, decodeAll_eq_splitRow, h _ (by omega), h _ (by omega)]

/-- With the invariant, equal tile data make equal caches. -/
theorem StateInv.tiles_eq (hs : StateInv s) (ht : StateInv t) (h : ∀ a < 0x1800, s.readVram a = t.readVram a) :
    s.tiles = t.tiles := by
  refine tiles_ext hs.canonical.2 ht.canonical.2 fun n hn r hr c hc => ?_
  rw [hs.coherent n hn r hr c hc, ht.coherent n hn r hr c hc, decodeAll_congr h hn hr]

/-- The response of TPX depends on the cache alone (rule R64). -/
theorem tpx_rsp_congr (h : s.tiles = s'.tiles) (p : Int) : (tpx p s).rsp = (tpx p s').rsp := by
  rw [tpx, tpx]
  split
  case isTrue => rw [respond_rsp, respond_rsp, pixel_congr h]
  case isFalse => rfl

/-- The response of TROW depends on the cache alone (rule R65). -/
theorem trow_rsp_congr (h : s.tiles = s'.tiles) (q : Int) : (trow q s).rsp = (trow q s').rsp := by
  rw [trow, trow]
  split
  case isTrue => rw [respond_rsp, respond_rsp, funext (pixel_congr h _ _)]
  case isFalse => rfl

/-- States with the same cache answer tile reads alike. -/
theorem tileRead_rsp_congr (hi : (∃ p, i = .tpx p) ∨ ∃ q, i = .trow q) (h : s.tiles = s'.tiles)
    (ht : exec i s = .next t) (ht' : exec i s' = .next t') : t.rsp = t'.rsp := by
  obtain ⟨p, rfl⟩ | ⟨q, rfl⟩ := hi
  · have hnext : ∀ s, exec (.tpx p) s = .next (tpx (addressOf p) s) := fun _ => rfl
    rw [exec_next_unique ht (hnext s), exec_next_unique ht' (hnext s'), tpx_rsp_congr h]
  · have hnext : ∀ s, exec (.trow q) s = .next (trow (addressOf q) s) := fun _ => rfl
    rw [exec_next_unique ht (hnext s), exec_next_unique ht' (hnext s'), trow_rsp_congr h]

/-! ## The row of a pair, as it is read -/

/-- A row of the cache that holds the split of two bytes reads as the row of these bytes (rules R56, R64, R65). -/
theorem rowReadsAs_of_pixels {q : AddrField} {plane1 plane2 : Byte} (hq : q.toNat < 0x0C00)
    (h : ∀ c < 8, s.pixel (q.toNat / 8) (q.toNat % 8) c = splitRow plane1 plane2 c) : RowReadsAs s q plane1 plane2 := by
  refine ⟨⟨_, _, execTrow_of_lt hq s, rfl, fun c hc => ?_⟩, fun c hc p hp => ⟨_, execTpx_of_lt (by omega) s, ?_⟩⟩
  · obtain ⟨hodd, heven⟩ := bitOf_rowWord (s.pixel (q.toNat / 8) (q.toNat % 8)) hc
    rw [hodd, heven, h c hc]
    exact bitOf_code_pv ..
  · have htile : p.toNat / 64 = q.toNat / 8 := by omega
    have hrow : p.toNat / 8 % 8 = q.toNat % 8 := by omega
    have hcol : p.toNat % 8 = c := by omega
    rw [respond_rsp, htile, hrow, hcol, h c hc, splitRow]

/-- After a VWR to tile data the row of its pair reads as the two bytes that the pair then has. -/
theorem vwr_rowReadsAs {a q : AddrField} {v : Byte} (hs : Canonical s) (ha : a.toNat < 0x1800)
    (h : exec (.vwr a v) s = .next t) (hq : q.toNat = a.toNat / 2) :
    RowReadsAs t q (t.readVram (pairBase a.toNat)) (t.readVram (pairBase a.toNat + 1)) := by
  have htile : q.toNat / 8 = tileIndex a.toNat := by unfold tileIndex; omega
  have hrow : q.toNat % 8 = rowIndex a.toNat := by unfold rowIndex; omega
  refine rowReadsAs_of_pixels (by omega) fun c hc => ?_
  rw [htile, hrow, vwr_row hs ha h hc]

end Sys2Proof.Machine
end

section
open Sys2Proof Sys2Proof.Machine

/-- Settles O46: a reset leaves the reset state's arrays, an idle step leaves the arrays alone, and a command keeps the
invariant, since a VWR decodes its row anew (`step_stateInv`). -/
theorem everyStepKeepsTheInvariant : Obligations.EveryStepKeepsTheInvariant := fun _ _ => step_stateInv

/-- Settles O26: out of range the command is the error; in range `vwr_next` gives every byte and every pixel. -/
theorem vwrFrame : Obligations.VwrFrame := by
  intro a v s t hs h
  have haddr : (addressOf a).toNat = a.toNat := rfl
  rw [haddr, inRange_addressOf, triggersUpdate_eq, decide_eq_false_iff_not, decide_eq_false_iff_not]
  by_cases ha : a.toNat < 0x2000
  · obtain ⟨-, -, hinputs, hbyte, hpixel⟩ := vwr_next hs ha h
    refine ⟨fun b hb => ?_, fun n _ r hr c hc hrow => ?_, hinputs⟩
    · rw [hbyte, if_neg (hb.resolve_right (not_not.2 ha))]
    · rw [hpixel n r c hr hc, if_neg]
      rintro ⟨hlt, rfl, rfl⟩
      exact hrow.elim (fun hne => hne rfl) fun hge => hge hlt
  · obtain rfl := exec_next_unique h (execVwr_of_ge (by omega) v s)
    exact ⟨fun _ _ => rfl, fun _ _ _ _ _ _ _ => rfl, rfl⟩

/-- Settles O25: these commands keep both arrays, so every byte and every pixel reads as before. -/
theorem readCommandsFrame : Obligations.ReadCommandsFrame := by
  intro i s t hi h
  have hsame : SameArrays t s := exec_sameArrays_of_not_vwr hi h
  exact ⟨hsame.readVram_eq, hsame.pixel_eq, exec_inputs h⟩

/-- Settles O33: after either write the row reads as the two bytes of the pair (`vwr_rowReadsAs`), and these are the new
bytes where they have been written and the old ones where they have not. -/
theorem trowSeesTheIntermediateRow : Obligations.TrowSeesTheIntermediateRow := by
  intro e o q v w s t u hs he heven ho hq
  have ho' : o.toNat < 0x1800 := by omega
  have hbase : pairBase e.toNat = e.toNat := by unfold pairBase; omega
  have hbase' : pairBase o.toNat = e.toNat := by unfold pairBase; omega
  have hq' : q.toNat = o.toNat / 2 := by omega
  have hne : e.toNat ≠ o.toNat := by omega
  refine ⟨fun ht hu => ?_, fun ht hu => ?_⟩
  · obtain ⟨ht', -, -, hbyte, -⟩ := vwr_next hs (by omega) ht
    have hrow := vwr_rowReadsAs hs he ht hq
    have hrow' := vwr_rowReadsAs ht' ho' hu hq'
    rw [hbase, ← ho, hbyte, hbyte, if_pos rfl, if_neg hne.symm] at hrow
    rw [hbase', ← ho, readVram_vwr_vwr hs he ho' ht hu, readVram_vwr_vwr hs he ho' ht hu, if_neg hne, if_pos rfl,
      if_pos rfl] at hrow'
    exact ⟨hrow, hrow'⟩
  · obtain ⟨ht', -, -, hbyte, -⟩ := vwr_next hs (by omega) ht
    have hrow := vwr_rowReadsAs hs ho' ht hq'
    have hrow' := vwr_rowReadsAs ht' he hu hq
    rw [hbase', ← ho, hbyte, hbyte, if_neg hne, if_pos rfl] at hrow
    rw [hbase, ← ho, readVram_vwr_vwr hs ho' he ht hu, readVram_vwr_vwr hs ho' he ht hu, if_pos rfl, if_neg hne.symm,
      if_pos rfl] at hrow'
    exact ⟨hrow, hrow'⟩

/-- Settles O48: the two bytes of a row of a tile stand below 0x1800, and a coherent cache is their decode. -/
theorem cacheIsAFunctionOfTheTileData : Obligations.CacheIsAFunctionOfTheTileData :=
  ⟨fun _ _ h _ hn _ hr c _ => decodeAll_congr h hn hr c, fun _ _ hs ht h => hs.tiles_eq ht h⟩

/-- Settles O49: canonical arrays that read alike are the same lists, and the arrays decide what a command answers and
leaves (`SameArrays.exec_next`). -/
theorem arraysAloneDecideEveryCommand : Obligations.ArraysAloneDecideEveryCommand :=
  ⟨fun _ _ hs ht hbyte hpixel => ⟨vram_ext hs.1 ht.1 hbyte, tiles_ext hs.2 ht.2 hpixel⟩,
    fun _ _ _ _ _ hsame ht ht' => hsame.exec_next ht ht'⟩

/-- Settles O50: equal tile data make equal caches, and a tile read answers from the cache alone. -/
theorem tileReadsDoNotSeeTheTileMap : Obligations.TileReadsDoNotSeeTheTileMap :=
  fun _ _ _ _ _ hi hs hs' h ht ht' => tileRead_rsp_congr hi (hs.tiles_eq hs' h) ht ht'

end

section
/-! PROOFS. The response port and the step (rules R12, R21, R22, R39, R43, R66, R77, R78): the codes of pixels, the
regions of the store, the response of each command, and which steps fail over a run. -/

namespace Sys2Proof.Machine

variable {s t : State} {i : Instr}

/-! ## Pixel codes and regions -/

/-- `PV` of the two bits of a code has that code: every code is one of a pixel value (rule R12). -/
theorem code_pv (k : BitVec 2) : (pv (bitOf k 1) (bitOf k 0)).code = k := by
  revert k
  decide

/-- A pixel value is `PV` of the two bits of its code: no two have the same code (rule R12). -/
theorem pv_code (x : PixelValue) : pv (bitOf x.code 1) (bitOf x.code 0) = x := by
  cases x <;> rfl

/-- The region of an address, by its bounds (rule R21). -/
theorem regionOf_eq (a : Nat) :
    regionOf a =
      if a < 0x1800 then some { kind := .tileData, base := 0x0000, size := 6144, decoded := true }
      else if a < 0x2000 then some { kind := .tileMap, base := 0x1800, size := 2048, decoded := false }
      else none := by
  by_cases hdata : a < 0x1800
  · simp [regionOf, Config.memoryMap, hdata]
  · have hbase : 0x1800 ≤ a := by omega
    by_cases hmap : a < 0x2000 <;> simp [regionOf, Config.memoryMap, hdata, hbase, hmap]

/-! ## Responses -/

/-- A command that answers OK is in range. -/
theorem commandInRange_of_ok {d : RspData} (h : exec i s = .next t) (hok : t.rsp = some (.ok d)) :
    commandInRange i = true := by
  rw [← Bool.not_eq_false, ← exec_rsp_outOfRange_iff h, hok]
  simp

/-- The data of the response that a command in range leaves. -/
theorem exec_rdata {d : RspData} (h : exec i s = .next t) (hok : t.rsp = some (.ok d)) :
    d = match i with
      | .vrd a => (s.readVram a.toNat).setWidth 16
      | .vwr _ _ => 0
      | .tpx p => (s.pixel (p.toNat / 64) (p.toNat / 8 % 8) (p.toNat % 8)).code.setWidth 16
      | .trow q => rowWord (s.pixel (q.toNat / 8) (q.toNat % 8)) := by
  have hrange := commandInRange_of_ok h hok
  cases i with
  | vrd a =>
    obtain rfl := exec_next_unique h (execVrd_of_lt (of_decide_eq_true hrange) s)
    simpa using hok.symm
  | vwr a v =>
    obtain rfl := exec_next_unique h (execVwr_of_lt (of_decide_eq_true hrange) v s)
    simpa using hok.symm
  | tpx p =>
    obtain rfl := exec_next_unique h (execTpx_of_lt (of_decide_eq_true hrange) s)
    simpa using hok.symm
  | trow q =>
    obtain rfl := exec_next_unique h (execTrow_of_lt (of_decide_eq_true hrange) s)
    simpa using hok.symm

@[simp] theorem consume_readVram (s : State) : s.consume.readVram = s.readVram := rfl

@[simp] theorem consume_pixel (s : State) : s.consume.pixel = s.pixel := rfl

/-- A narrow value in the data field of a response reaches the wire zero-extended. -/
theorem rspWord_respond_setWidth {n : Nat} (hn : n ≤ 16) (x : BitVec n) (s : State) :
    (s.respond (x.setWidth 16)).rspWord = some (x.setWidth 32) := by
  rw [respond_rspWord, BitVec.setWidth_setWidth (by omega)]

/-! ## Runs that fail -/

/-- A step on a legal input fails exactly when the input is a command out of range (rule R66). -/
theorem failsNow_of_next (h : step s = .next t) :
    failsNow s = (!s.port.rst && s.port.reqValid && !commandInRange (decode s.port.reqCmd)) := by
  obtain ⟨hrst, -, -⟩ | ⟨hrst, hvalid, hexec⟩ | ⟨-, hvalid, -⟩ := step_cases h
  · simp [failsNow, h, hrst]
  · have hrsp : (t.rsp == some Response.outOfRange) = !commandInRange (decode s.port.reqCmd) := by
      rw [Bool.eq_iff_iff, beq_iff_eq, exec_rsp_outOfRange_iff hexec, Bool.not_eq_true']
    simp [failsNow, h, hrst, hvalid, hrsp]
  · simp [failsNow, h, hvalid]

theorem sawOutOfRange_succ_of_next (h : step s = .next t) (n : Nat) :
    sawOutOfRange (n + 1) s = (failsNow s || sawOutOfRange n t) := by
  rw [sawOutOfRange, h]

/-- A run over legal inputs sees an `OutOfRange` exactly when one of them is a command out of range. -/
theorem sawOutOfRange_eq_any {ins rest : List PortInput} (hinputs : s.inputs = ins ++ rest)
    (hlegal : ∀ p ∈ ins, p.legal = true) :
    sawOutOfRange ins.length s = ins.any fun p => !p.rst && p.reqValid && !commandInRange (decode p.reqCmd) := by
  induction ins generalizing s with
  | nil => rfl
  | cons p ins ih =>
    have hport : s.port = p := port_of_inputs_cons hinputs
    obtain ⟨u, hstep⟩ := step_of_legal (s := s) (hport ▸ hlegal p (by simp))
    have htail : u.inputs = ins ++ rest := by rw [step_inputs hstep, hinputs]; rfl
    rw [List.length_cons, sawOutOfRange_succ_of_next hstep, failsNow_of_next hstep, hport,
      ih htail fun q hq => hlegal q (by simp [hq]), List.any_cons]

/-- Every run over legal inputs goes to their end. -/
theorem runSteps_of_legal {ins rest : List PortInput} (hinputs : s.inputs = ins ++ rest)
    (hlegal : ∀ p ∈ ins, p.legal = true) : ∃ t, runSteps ins.length s = .next t ∧ t.inputs = rest := by
  induction ins generalizing s with
  | nil => exact ⟨s, rfl, hinputs⟩
  | cons p ins ih =>
    have hport : s.port = p := port_of_inputs_cons hinputs
    obtain ⟨u, hstep⟩ := step_of_legal (s := s) (hport ▸ hlegal p (by simp))
    have htail : u.inputs = ins ++ rest := by rw [step_inputs hstep, hinputs]; rfl
    obtain ⟨t, hrun, hrest⟩ := ih htail fun q hq => hlegal q (by simp [hq])
    exact ⟨t, (runSteps_succ_of_next hstep _).trans hrun, hrest⟩

end Sys2Proof.Machine
end

section
open Sys2Proof Sys2Proof.Machine

/-- Settles O10: `err` is bit 31 (`bitOf_word_err`), an OK word is its data zero-extended, and `exec_rdata` gives the data
of each command. -/
theorem responseWordFormat : Obligations.ResponseWordFormat := by
  refine ⟨fun d => ⟨rfl, bitOf_word_err _, ?_, ?_⟩, rfl, bitOf_word_err _, fun a s t d h hok => ?_,
    fun a v s t d h hok => exec_rdata h hok, fun p s t d h hok => ?_, fun q s t d h hok => exec_rdata h hok⟩
  · have hd := d.isLt
    rw [← BitVec.toNat_inj, slice_toNat, Response.word, BitVec.toNat_setWidth]
    simp only [BitVec.ofNat_eq_ofNat, BitVec.toNat_ofNat]
    omega
  · have hd := d.isLt
    rw [← BitVec.toNat_inj, slice_toNat, Response.word, BitVec.toNat_setWidth]
    omega
  · have hdata : d = (s.readVram a.toNat).setWidth 16 := exec_rdata h hok
    have hbyte := (s.readVram a.toNat).isLt
    refine ⟨hdata, ?_⟩
    rw [hdata, BitVec.toNat_setWidth]
    omega
  · have hdata : d = (s.pixel (p.toNat / 64) (p.toNat / 8 % 8) (p.toNat % 8)).code.setWidth 16 := exec_rdata h hok
    have hcode := (s.pixel (p.toNat / 64) (p.toNat / 8 % 8) (p.toNat % 8)).code.isLt
    refine ⟨hdata, ?_⟩
    rw [hdata, BitVec.toNat_setWidth]
    omega

/-- Settles O52: by induction over the inputs, each step fails exactly on a command out of range
(`sawOutOfRange_eq_any`). -/
theorem runsFailExactlyOnBadOperands : Obligations.RunsFailExactlyOnBadOperands :=
  fun _ _ _ hinputs hlegal => sawOutOfRange_eq_any hinputs hlegal

/-- Settles O11: the codes of the four variants, and `PV` of a code's bits as the one value that has it. -/
theorem pixelCodesAreTheVariantNumbers : Obligations.PixelCodesAreTheVariantNumbers := by
  refine ⟨rfl, rfl, rfl, rfl, fun k => ⟨pv (bitOf k 1) (bitOf k 0), code_pv k, ?_⟩⟩
  rintro y rfl
  exact (pv_code y).symm

/-- Settles O13: in each of the three stretches of addresses the region is known (`regionOf_eq`), and the bounds check and
the trigger compare with the same bounds. -/
theorem memoryMapHasTwoRegions : Obligations.MemoryMapHasTwoRegions := by
  intro a
  rw [regionOf_eq, triggersUpdate_eq, Bool.eq_iff_iff, inRange_iff]
  by_cases hdata : a < 0x1800
  · have : a ≤ 0x1FFF := by omega
    simp [*]
  · by_cases hmap : a < 0x2000
    · have : a ≤ 0x1FFF := by omega
      have : 0x1800 ≤ a := by omega
      simp [*]
    · have : ¬a ≤ 0x1FFF := by omega
      simp [*]

/-- Settles O37: a global address is 0x8000 or more, where every command fails, and its local address is below 0x2000. -/
theorem globalAddressesFailUntranslated : Obligations.GlobalAddressesFailUntranslated := by
  intro g l v s hlow hhigh hl
  obtain ⟨hvrd, hvwr, -, -⟩ := exec_of_high_field hlow v s
  have hlocal : l.toNat < 0x2000 := by omega
  exact ⟨⟨hvrd, hvwr⟩, ⟨_, _, execVrd_of_lt hlocal s, rfl⟩, _, _, execVwr_of_lt hlocal v s, rfl⟩

/-- Settles O39: the step is the reset, whose arrays are those of the reset state (`resetStateIsAllZero`). -/
theorem resetInputEstablishesTheResetState : Obligations.ResetInputEstablishesTheResetState := by
  intro s hrst hvalid
  obtain ⟨hbyte, hpixel⟩ := resetStateIsAllZero
  exact ⟨_, step_reset hrst hvalid, ⟨rfl, rfl⟩, hbyte, hpixel, rfl, rfl⟩

/-- Settles O40: `rst` with `req_valid` is the one input that is not legal, and every legal one is answered. -/
theorem onlyResetDuringACommandIsRefused : Obligations.OnlyResetDuringACommandIsRefused := by
  refine fun s => ⟨fun ⟨hrst, hvalid⟩ => step_refused hrst hvalid, fun h => step_of_legal ?_⟩
  rwa [PortInput.legal, Bool.not_eq_true', ← Bool.not_eq_true, Bool.and_eq_true]

/-- Settles O41: an idle step only takes its entry off the list of inputs. -/
theorem idleChangesNothing : Obligations.IdleChangesNothing :=
  fun _ hrst hvalid => ⟨_, step_idle hrst hvalid, ⟨rfl, rfl⟩, rfl, rfl⟩

/-- Settles O42: a presented word is run as the command it decodes to, and the word of an instruction, presented as its
number, decodes to that instruction. -/
theorem stepRunsTheDecodedCommand : Obligations.StepRunsTheDecodedCommand := by
  refine ⟨fun s hrst hvalid => step_command hrst hvalid, fun i s => ?_⟩
  rw [State.withFetchWord, presentedWord_toNat, step_drive_commandInput, decode_encode]
  rfl

/-- Settles O55: in range each command answers its data, which reaches the wire zero-extended, and out of range it raises
the error, whose word is 0x80000000. -/
theorem responseWordStandsAtThePort : Obligations.ResponseWordStandsAtThePort := by
  intro s hrst hvalid
  rw [step_command hrst hvalid]
  cases decode s.port.reqCmd with
  | vrd a =>
    by_cases ha : a.toNat < 0x2000
    · exact ⟨_, execVrd_of_lt ha _, rfl, (rspWord_respond_setWidth (by omega) _ _).trans (by simp [ha])⟩
    · exact ⟨_, execVrd_of_ge (by omega) _, rfl, by simp [ha]⟩
  | vwr a v =>
    by_cases ha : a.toNat < 0x2000
    · exact ⟨_, execVwr_of_lt ha v _, rfl, by simp [ha]⟩
    · exact ⟨_, execVwr_of_ge (by omega) v _, rfl, by simp [ha]⟩
  | tpx p =>
    by_cases hp : p.toNat < 0x6000
    · exact ⟨_, execTpx_of_lt hp _, rfl, (rspWord_respond_setWidth (by omega) _ _).trans (by simp [hp])⟩
    · exact ⟨_, execTpx_of_ge (by omega) _, rfl, by simp [hp]⟩
  | trow q =>
    by_cases hq : q.toNat < 0x0C00
    · exact ⟨_, execTrow_of_lt hq _, rfl, by simp [hq]⟩
    · exact ⟨_, execTrow_of_ge (by omega) _, rfl, by simp [hq]⟩

end

section
/-! PROOFS. The assembler (rules R47, R48): what the word of a line carries, what a line drives, and a listing as the
inputs of its lines one after another. -/

namespace Sys2Proof.Machine

variable {l : AsmLine} {ls : List AsmLine} {ps : List PortInput}

/-! ## Words -/

/-- The canonical word of an opcode and two operand fields carries them. -/
theorem wordCarries_commandWord (op : BitVec 2) (addr : AddrField) (data : Byte) :
    WordCarries (commandWord op 0 addr data) op addr.toNat data.toNat := by
  refine ⟨opField_commandWord .., rsvField_commandWord .., ?_, ?_⟩
  · rw [addrField_commandWord]
  · rw [dataField_commandWord]

/-- A word with an integer address and no data carries the address modulo 65536 (rule R41). -/
theorem wordCarries_fieldOf (op : BitVec 2) (a : Int) :
    WordCarries (commandWord op 0 (fieldOf a) 0) op (a % 65536) 0 := by
  rw [← fieldOf_toNat]
  exact wordCarries_commandWord op (fieldOf a) 0

/-- An address from 0 to 65535 is carried as it is. -/
theorem wordCarries_fieldOf_of_fits (op : BitVec 2) {a : Int} (h0 : 0 ≤ a) (h1 : a ≤ 65535) :
    WordCarries (commandWord op 0 (fieldOf a) 0) op a 0 := by
  have hcarries := wordCarries_fieldOf op a
  rwa [Int.emod_eq_of_lt h0 (by omega)] at hcarries

/-- The word of a VWR carries its address modulo 65536 and its value modulo 256 (rules R41, R51). -/
theorem wordCarries_vwr (a v : Int) :
    WordCarries (encode (.vwr (fieldOf a) (maskByte v))) 0b01 (a % 65536) (v % 256) := by
  rw [← fieldOf_toNat, ← maskByte_toNat_int]
  exact wordCarries_commandWord 0b01 (fieldOf a) (maskByte v)

/-! ## One line -/

theorem assembleLine_reset : assembleLine .reset = some [resetInput] := rfl

/-- The assembler accepts a line when it is well formed. -/
theorem assembleLine_isSome (l : AsmLine) : (assembleLine l).isSome = l.wellFormed := by
  cases hwf : l.wellFormed with
  | false => rw [assembleLine_of_not_wellFormed hwf]; rfl
  | true =>
    by_cases hl : l = .reset
    · rw [hl, assembleLine_reset]; rfl
    · rw [assembleLine_of_wellFormed hl hwf]; rfl

/-- What an accepted line drives: a reset for the RESET line, the words of its commands for every other one. -/
theorem assembleLine_cases (h : assembleLine l = some ps) :
    l = .reset ∧ ps = [resetInput] ∨
      l ≠ .reset ∧ ps = (assembleCommands l).map fun i => commandInput (encode i) := by
  by_cases hl : l = .reset
  · subst hl
    exact .inl ⟨rfl, (Option.some.inj h).symm⟩
  · have hwf : l.wellFormed = true := by rw [← assembleLine_isSome, h]; rfl
    rw [assembleLine_of_wellFormed hl hwf] at h
    exact .inr ⟨hl, (Option.some.inj h).symm⟩

/-- The words of commands, presented one by one, decode to the commands. -/
theorem map_decode_commandInput (is : List Instr) :
    (is.map fun i => commandInput (encode i)).map (fun p => decode p.reqCmd) = is := by
  rw [List.map_map]
  exact List.map_id'' decode_encode is

/-- The commands among the inputs of a line are the line's. -/
theorem assembleLine_commands (h : assembleLine l = some ps) :
    (ps.filter fun p => p.reqValid).map (fun p => decode p.reqCmd) = assembleCommands l := by
  obtain ⟨rfl, rfl⟩ | ⟨-, rfl⟩ := assembleLine_cases h
  · rfl
  · have hvalid : ∀ p ∈ (assembleCommands l).map fun i => commandInput (encode i), p.reqValid = true := by
      simp [commandInput]
    rw [List.filter_eq_self.2 hvalid, map_decode_commandInput]

/-- The inputs of a line are legal. -/
theorem assembleLine_legal (h : assembleLine l = some ps) : ∀ p ∈ ps, p.legal = true := by
  obtain ⟨-, rfl⟩ | ⟨-, rfl⟩ := assembleLine_cases h
  · simp [resetInput, PortInput.legal]
  · simp [commandInput, PortInput.legal]

/-! ## A listing -/

/-- A listing of accepted lines is assembled into the inputs of its lines, one after another. -/
theorem assemble_of_wellFormed (h : ∀ l ∈ ls, l.wellFormed = true) :
    assemble ls = some (ls.flatMap fun l => (assembleLine l).getD []) := by
  induction ls with
  | nil => rfl
  | cons l ls ih =>
    obtain ⟨ps, hl⟩ := Option.isSome_iff_exists.1 ((assembleLine_isSome l).trans (h l (by simp)))
    rw [assemble_cons_of_some hl (ih fun l' hl' => h l' (by simp [hl'])), List.flatMap_cons, hl, Option.getD_some]

/-- Every line of a listing that is assembled has been accepted. -/
theorem wellFormed_of_assemble_eq_some (h : assemble ls = some ps) : ∀ l ∈ ls, l.wellFormed = true := by
  induction ls generalizing ps with
  | nil => simp
  | cons l ls ih =>
    obtain ⟨qs, rs, hl, hls, -⟩ := assemble_cons_eq_some h
    refine List.forall_mem_cons.2 ⟨?_, ih hls⟩
    rw [← assembleLine_isSome, hl]
    rfl

/-- The commands among the inputs of a listing are those of its lines, in order. -/
theorem assemble_commands (h : assemble ls = some ps) :
    (ps.filter fun p => p.reqValid).map (fun p => decode p.reqCmd) = ls.flatMap assembleCommands := by
  induction ls generalizing ps with
  | nil => cases h; rfl
  | cons l ls ih =>
    obtain ⟨qs, rs, hl, hls, rfl⟩ := assemble_cons_eq_some h
    rw [List.filter_append, List.map_append, assembleLine_commands hl, ih hls, List.flatMap_cons]

/-- The inputs of a listing are legal. -/
theorem assemble_legal (h : assemble ls = some ps) : ∀ p ∈ ps, p.legal = true := by
  induction ls generalizing ps with
  | nil => cases h; simp
  | cons l ls ih =>
    obtain ⟨qs, rs, hl, hls, rfl⟩ := assemble_cons_eq_some h
    exact List.forall_mem_append.2 ⟨assembleLine_legal hl, ih hls⟩

end Sys2Proof.Machine
end

section
open Sys2Proof Sys2Proof.Machine

/-- Settles O9: an accepted line presents the words of its commands (`assembleLine_of_wellFormed`), each canonical and
decoding to its command; the ranges are those of `AsmLine.wellFormed`, and the flat addresses within them fit the field. -/
theorem assemblerPresentsTheLinesCommands : Obligations.AssemblerPresentsTheLinesCommands := by
  refine ⟨fun l hl hwf => ⟨_, assembleLine_of_wellFormed hl hwf, map_decode_commandInput _, ?canonical⟩,
    fun l hwf => assembleLine_of_not_wellFormed hwf, assembleLine_reset, fun a v => ?store, fun t r c => ?tpx,
    fun t r => ?trow, fun p => ?flat, fun a b0 b1 => ?vwp, fun t r c ht hr hc => ⟨_, rfl, ?pixelAddress⟩,
    fun t r ht hr => ⟨_, rfl, ?rowAddress⟩, fun a b0 b1 => rfl⟩
  case canonical => simp [commandInput, canonicalWord_encode]
  case store => simp [AsmLine.wellFormed]
  case tpx => simp [AsmLine.wellFormed, and_assoc]
  case trow => simp [AsmLine.wellFormed]
  case flat => simp [AsmLine.wellFormed]
  case vwp =>
    simp only [AsmLine.wellFormed, Bool.and_eq_true, decide_eq_true_eq]
    omega
  case pixelAddress =>
    have hfield := fieldOf_toNat (t * 64 + r * 8 + c)
    omega
  case rowAddress =>
    have hfield := fieldOf_toNat (t * 8 + r)
    omega

/-- Settles O53: every line in its range is accepted (`assemblerPresentsTheLinesCommands`) and presents the words of its
commands, whose fields carry the operands as the field and the mask hold them. -/
theorem assembledWordsCarryTheLinesOperands : Obligations.AssembledWordsCarryTheLinesOperands := by
  obtain ⟨-, -, -, hstore, htpx, htrow, hflat, hvwp, -⟩ := assemblerPresentsTheLinesCommands
  refine ⟨fun a h0 h1 => ?vrd, fun a v h0 h1 => ?vwr, fun t r c ht0 ht1 hr0 hr1 hc0 hc1 => ?tpx,
    fun p h0 h1 => ?tpxAt, fun t r ht0 ht1 hr0 hr1 => ?trow, fun q h0 h1 => ?trowAt, fun a b0 b1 h0 h1 => ?vwp⟩
  case vrd =>
    obtain ⟨hwf, -⟩ := hstore a 0
    exact ⟨_, assembleLine_of_wellFormed (by simp) (hwf.2 ⟨h0, h1⟩), wordCarries_fieldOf 0b00 a⟩
  case vwr =>
    obtain ⟨-, hwf⟩ := hstore a v
    exact ⟨_, assembleLine_of_wellFormed (by simp) (hwf.2 ⟨h0, h1⟩), wordCarries_vwr a v⟩
  case tpx =>
    exact ⟨_, assembleLine_of_wellFormed (by simp) ((htpx t r c).2 ⟨⟨ht0, ht1⟩, ⟨hr0, hr1⟩, hc0, hc1⟩),
      wordCarries_fieldOf_of_fits 0b10 (by omega) (by omega)⟩
  case tpxAt =>
    obtain ⟨hwf, -⟩ := hflat p
    exact ⟨_, assembleLine_of_wellFormed (by simp) (hwf.2 ⟨h0, h1⟩), wordCarries_fieldOf_of_fits 0b10 h0 h1⟩
  case trow =>
    exact ⟨_, assembleLine_of_wellFormed (by simp) ((htrow t r).2 ⟨⟨ht0, ht1⟩, hr0, hr1⟩),
      wordCarries_fieldOf_of_fits 0b11 (by omega) (by omega)⟩
  case trowAt =>
    obtain ⟨-, hwf⟩ := hflat q
    exact ⟨_, assembleLine_of_wellFormed (by simp) (hwf.2 ⟨h0, h1⟩), wordCarries_fieldOf_of_fits 0b11 h0 h1⟩
  case vwp =>
    exact ⟨_, _, assembleLine_of_wellFormed (by simp) ((hvwp a b0 b1).2 ⟨h0, h1⟩), wordCarries_vwr a b0,
      wordCarries_vwr (a + 1) b1⟩

/-- Settles O54: by induction over the lines, accepted lines are assembled one after another, a listing that is assembled
has only accepted lines, and its inputs are legal, so that every run over them goes to their end (`runSteps_of_legal`). -/
theorem listingsAreAssembledLineByLine : Obligations.ListingsAreAssembledLineByLine := by
  refine ⟨fun ls hwf => ?_, fun ls l hl hwf => ?_, fun ls ps rest s h hinputs =>
    runSteps_of_legal hinputs (assemble_legal h)⟩
  · have h := assemble_of_wellFormed hwf
    exact ⟨_, h, rfl, assemble_commands h⟩
  · refine Option.eq_none_iff_forall_ne_some.2 fun ps h => ?_
    rw [wellFormed_of_assemble_eq_some h l hl] at hwf
    cases hwf

end
